-- ==== Sys2Proof/Word.lean ====
section
/-! DEFINITION. The machine's one datum width: every register, memory cell, operand and emitted value is an unsigned
8-bit byte (`10_state.md` R20, R27, R30; `00_scope.md` R7). -/

namespace Sys2Proof

/-- An unsigned 8-bit cell (R7: "All register and memory values are unsigned"). -/
abbrev Byte := BitVec 8

/-- A valid register index, 0 to 7 (`10_state.md` R20). Operand bytes are NOT of this type: they stay raw bytes until
a handler validates them (`40_engine_cycle.md` R87). -/
abbrev RegIndex := Fin 8

end Sys2Proof
end

