-- ==== Sys2Proof/Config.lean ====
section
/-! DEFINITION. The implementation parameters of `00_scope.md` R5. "This hardware has exactly these values", so each is
a constant. The spec leaves no value free, so there is no opaque constant here. -/

namespace Sys2Proof.Config

/-- MEM_SIZE, the number of memory cells (R5, R27). -/
abbrev memSize : Nat := 256

/-- NUM_REGS (R5, R20). -/
abbrev numRegs : Nat := 8

/-- SP_INDEX, the register used as stack pointer (R5, R23). -/
abbrev sp : RegIndex := 7

/-- SP_RESET (R5, R35: "initialized to 0xF4 (244)"). -/
abbrev spReset : Byte := 0xF4

/-- GPR_RESET, the reset value of registers 0 to 6. DESIGN CHOICE (unsafe, log 3): the source gives none; R35 takes 0x00
by decision D2. -/
abbrev gprReset : Byte := 0x00

/-- PC_RESET. DEDUCED (unsafe, log 4): R35, R171 and decision D3 read it from the load address and the print8
scenario. -/
abbrev pcReset : Nat := 0

/-- The content of a memory cell that nothing has written (R27, R35: memory is "zero-initialized"). -/
abbrev memReset : Byte := 0x00

/-- LOAD_BASE, the address of the first image byte (R5, R174). -/
abbrev loadBase : Nat := 0

/-- The longest instruction, in bytes (R60). -/
abbrev maxInstrLength : Nat := 3

/-- The bound on the steps of a run (`70_reset_and_hazards.md` R180). -/
abbrev maxSteps : Nat := 129

end Sys2Proof.Config
end

