-- ==== Sys2Proof/Machine/State.lean ====
section
/-! DEFINITION. The machine's state, the tuple `S` of `10_state.md`, and its value after reset. "Nothing else is state." -/

namespace Sys2Proof.Machine

/-- The run state (`10_state.md` R28). FAULTED is the spec's own third value (decision D5, log 7). -/
inductive RunState where
  | running
  | halted
  | faulted
deriving DecidableEq, Repr

/-- The four fatal errors of the core (`60_exceptions.md` R140, R141). -/
inductive ErrorKind where
  /-- the opcode byte is not in the dispatch table (R142) -/
  | unknownOpcode
  /-- a memory access above address 255 (R143) -/
  | addressOutOfRange
  /-- a register operand of 8 to 255 (R144) -/
  | registerIndexOutOfRange
  /-- an ALU operation other than ADD, SUB, MUL (R145); no program raises it -/
  | unsupportedOperation
deriving DecidableEq, Repr

/-- The error record `(kind, pc, info)` (`10_state.md` R29; log 10). -/
structure ErrorRecord where
  kind : ErrorKind
  pc   : Nat
  info : Nat
deriving DecidableEq, Repr

/-- Memory as data: the cells that differ from the reset content, at strictly rising addresses (`Memory.wf`). -/
abbrev Memory := List Host.Cell

/-- The complete state of the engine (`10_state.md`). -/
structure State where
  /-- the register file, eight 8-bit cells (R20) -/
  x   : Vector Byte 8
  /-- the program counter, an unsigned integer that never wraps (R24, R25; log 5) -/
  pc  : Nat
  /-- the memory array, 256 8-bit cells (R27) -/
  mem : Memory
  /-- the run state (R28) -/
  run : RunState
  /-- the error record, or none (R29) -/
  err : Option ErrorRecord
  /-- the output log, oldest value first (R30) -/
  out : List Byte
deriving DecidableEq, Repr

/-- Why a step does not exist. A fatal error of the hardware is NOT here: it is a next state whose run state is FAULTED
(`60_exceptions.md` R150; log 1). -/
inductive Fault where
  /-- Raised by `step` in the HALTED state: "In a terminal run state no step exists: nothing changes until reset"
  (`40_engine_cycle.md` R89). Safe: nothing is claimed of a step the spec says is not there (log 2). -/
  | engineHalted
  /-- Raised by `step` in the FAULTED state, for the same rule (R89, `60_exceptions.md` R152). Safe (log 2). -/
  | engineFaulted
deriving DecidableEq, Repr

/-- Why an instruction has no meaning. -/
inductive Refusal where
  /-- The dispatcher's answer to an instruction that is not modelled. No arm answers it: all six are modelled. Safe. -/
  | notModelled (mnemonic : String)
deriving DecidableEq, Repr

/-- The state after reset (`10_state.md` R35, `70_reset_and_hazards.md` R170). R7 and memory are the source's values;
R0 to R6 are decision D2 (log 3), the PC is D3 (log 4), the rest is D21 (log 18). -/
def State.reset : State where
  x := (Vector.replicate 8 Config.gprReset).set 7 Config.spReset
  pc := Config.pcReset
  mem := []
  run := .running
  err := none
  out := []

end Sys2Proof.Machine
end

