-- ==== Sys2Proof/Machine/Ops.lean ====
section
/-! DEFINITION. The named operations over registers, memory, PC, output and run state (`00_scope.md` R8, R9), and
raising a fatal error (`60_exceptions.md` R150). There is no return from a fatal error (R152), so no operation for it. -/

namespace Sys2Proof.Machine

/-! ## wrap8 -/

/-- `wrap8(v)`: the residue of `v` modulo 256, 0 to 255, also for negative `v` (`00_scope.md` R8). -/
def wrap8 (v : Int) : Byte := BitVec.ofInt 8 v

/-! ## Memory -/

/-- The content `M[a]` of a cell; an unlisted cell holds its reset content 0x00 (`10_state.md` R27, `20_memory.md` R45). -/
def Memory.read (m : Memory) (a : Nat) : Byte :=
  match m.find? (fun c => c.1 == a) with
  | some c => c.2
  | none => Config.memReset

/-- Set one cell and no other (`20_memory.md` R42), keeping the canonical form: writing the reset content removes the
entry. -/
def Memory.write (m : Memory) (a : Nat) (v : Byte) : Memory :=
  m.filter (fun c => decide (c.1 < a)) ++ (if v = Config.memReset then [] else [(a, v)])
    ++ m.filter (fun c => decide (a < c.1))

/-- The canonical form: addresses strictly rising, each an address of the machine (R40), no entry equal to the reset
content. -/
abbrev Memory.wf (m : Memory) : Prop :=
  m.Pairwise (fun c d => c.1 < d.1) ∧ ∀ c ∈ m, c.1 < Config.memSize ∧ c.2 ≠ Config.memReset

/-- What a fatal error reports beside the PC: its kind and its `info` (`10_state.md` R29). -/
structure Raised where
  kind : ErrorKind
  info : Nat
deriving DecidableEq, Repr

/-- `MemRead(a, 1)` (`20_memory.md` R41). -/
def memRead (s : State) (a : Nat) : Except Raised Byte :=
  if a < Config.memSize then .ok (s.mem.read a) else .error ⟨.addressOutOfRange, a⟩

/-- `MemWrite(a, 1, v)` (`20_memory.md` R42). -/
def memWrite (s : State) (a : Nat) (v : Byte) : Except Raised State :=
  if a < Config.memSize then .ok { s with mem := s.mem.write a v } else .error ⟨.addressOutOfRange, a⟩

/-- Store bytes at ascending addresses (`20_memory.md` R43); a byte that would fall outside the address space is
dropped. -/
def Memory.storeBytes (m : Memory) (a : Nat) : List Byte → Memory
  | [] => m
  | b :: bs => Memory.storeBytes (if a < Config.memSize then m.write a b else m) (a + 1) bs

/-! ## Registers, PC, output, run state -/

/-- `x[i]` (`10_state.md` R21). -/
def State.readReg (s : State) (i : RegIndex) : Byte := s.x[i.val]

/-- `x[i] <- v`: stores `wrap8(v)` and changes no other cell (`10_state.md` R22). -/
def State.writeReg (s : State) (i : RegIndex) (v : Int) : State := { s with x := s.x.set i.val (wrap8 v) }

/-- `pc <- pc + n`, exact (`10_state.md` R25, `40_engine_cycle.md` R88). -/
def State.advance (s : State) (n : Nat) : State := { s with pc := s.pc + n }

/-- `Emit(v)`: append to the output log (`10_state.md` R30). -/
def State.emit (s : State) (v : Byte) : State := { s with out := s.out ++ [v] }

/-- `run <- HALTED` (`41_system_hlt.md` R95). -/
def State.halt (s : State) : State := { s with run := .halted }

/-! ## Raising a fatal error -/

/-- `raise E(info)`: the run state and the error record, and nothing else; the record holds the current PC
(`60_exceptions.md` R150). -/
def State.raise (s : State) (e : Raised) : State :=
  { s with run := .faulted, err := some ⟨e.kind, s.pc, e.info⟩ }

/-- A step is all or nothing: the completed effect, or the state the step began in with the error raised
(`40_engine_cycle.md` R92; log 8). -/
def State.settle (s : State) : Except Raised State → State
  | .ok t => t
  | .error e => s.raise e

/-- The outcome of a handler that began in `s`. -/
def finish (s : State) (r : Except Raised State) : Host.Outcome State Fault Refusal := .next (s.settle r)

/-! ## What the status ports show -/

/-- The suggested code of a run state (`10_state.md` R28). -/
def RunState.code : RunState → Nat
  | .running => 0
  | .halted => 1
  | .faulted => 2

/-- The cause code of an error kind (`60_exceptions.md` R141). -/
def ErrorKind.code : ErrorKind → Nat
  | .unknownOpcode => 1
  | .addressOutOfRange => 2
  | .registerIndexOutOfRange => 3
  | .unsupportedOperation => 4

/-- The `error` port's cause code; 0 is "no error" (R141). -/
def errorCode (s : State) : Nat :=
  match s.err with
  | none => 0
  | some e => e.kind.code

/-- The value the `out_value` port shows between two states, none when `out_valid` is low (`10_state.md` R33): what the
log gained. -/
def emittedBy (before after : State) : Option Byte := (after.out.drop before.out.length).head?

end Sys2Proof.Machine
end

