-- ==== Sys2Proof/Machine/Operands.lean ====
section
/-! DEFINITION. The operand forms: a register operand, and the stack's one addressing mode
(`30_encoding.md` R63, R64; `44_stack_pop_push.md` R135). An immediate is the operand byte as it stands (R64). -/

namespace Sys2Proof.Machine

/-- Validate a register operand: the whole byte, 0 to 7, never masked; otherwise RegisterIndexOutOfRange with the byte as
`info` (`30_encoding.md` R63, `40_engine_cycle.md` R87). -/
def regIndex (b : Byte) : Except Raised RegIndex :=
  if h : b.toNat < Config.numRegs then .ok ⟨b.toNat, h⟩ else .error ⟨.registerIndexOutOfRange, b.toNat⟩

/-- The address register 7 holds: POP's effective address before its increment, PUSH's after its decrement (R135). -/
def stackAddress (s : State) : Nat := (s.readReg Config.sp).toNat

/-- `x[7] <- x[7] - 1` (R129; `wrap8` applies). -/
def State.decrementSp (s : State) : State := s.writeReg Config.sp ((s.readReg Config.sp).toNat - 1)

/-- `x[7] <- x[7] + 1` (R126; `wrap8` applies). -/
def State.incrementSp (s : State) : State := s.writeReg Config.sp ((s.readReg Config.sp).toNat + 1)

end Sys2Proof.Machine
end

