-- ==== Sys2Proof/Machine/LoadPrint.lean ====
section
/-! DEFINITION. Load immediate and print: LDI, PRN (`42_ldi_prn.md`). -/

namespace Sys2Proof.Machine

/-- LDI reg, imm (R100): `x[reg] <- imm`, `pc <- pc + 3`. -/
def execLdi (reg imm : Byte) (s : State) : Host.Outcome State Fault Refusal :=
  finish s (do
    let r ← regIndex reg
    return (s.writeReg r imm.toNat).advance 3)

/-- PRN reg (R102): `Emit(x[reg])`, `pc <- pc + 2`. -/
def execPrn (reg : Byte) (s : State) : Host.Outcome State Fault Refusal :=
  finish s (do
    let r ← regIndex reg
    return (s.emit (s.readReg r)).advance 2)

end Sys2Proof.Machine
end

