-- ==== Sys2Proof/Machine/Flags.lean ====
section
/-! DEFINITION. The ALU (`43_alu_mul.md` R110 to R116). The machine has no flags: "The ALU writes no flag: no carry, no
borrow, no overflow, no zero, no sign, no comparison result" (R111, `10_state.md` R31), so this file, where another
machine's flags would be computed, computes results only. -/

namespace Sys2Proof.Machine

/-- The ALU's operation input, as R116 and decision D11 recommend: ADD, SUB, MUL "plus one constructor standing for any
other operation" (log 12). -/
inductive AluOp where
  | add
  | sub
  | mul
  | other
deriving DecidableEq, Repr

/-- The exact integer result of an operation on two unsigned values, none for an unrecognised operation
(R112, R113, R114, R116). -/
def aluExact (op : AluOp) (p q : Byte) : Option Int :=
  match op with
  | .add => some ((p.toNat : Int) + q.toNat)
  | .sub => some ((p.toNat : Int) - q.toNat)
  | .mul => some ((p.toNat : Int) * q.toNat)
  | .other => none

/-- `alu(op, p, q) = wrap8(p <op> q)`, the ALU as a function of values (R110). -/
def aluValue (op : AluOp) (p q : Byte) : Option Byte := (aluExact op p q).map wrap8

/-- `ALU(op, a, b)`: both reads before the write of `x[a]`; UnsupportedOperation, with `info` 0, on an unrecognised
operation (R110, R116, R145). It does not touch the PC. -/
def alu (op : AluOp) (a b : RegIndex) (s : State) : Except Raised State :=
  match aluExact op (s.readReg a) (s.readReg b) with
  | some v => .ok (s.writeReg a v)
  | none => .error ⟨.unsupportedOperation, 0⟩

end Sys2Proof.Machine
end

