-- ==== Sys2Proof/Machine/Multiply.lean ====
section
/-! DEFINITION. The multiply instruction MUL (`43_alu_mul.md`). -/

namespace Sys2Proof.Machine

/-- MUL regA, regB (R115): both operands validated in order, `ALU(MUL, regA, regB)`, `pc <- pc + 3`. -/
def execMul (regA regB : Byte) (s : State) : Host.Outcome State Fault Refusal :=
  finish s (do
    let a ← regIndex regA
    let b ← regIndex regB
    let t ← alu .mul a b s
    return t.advance 3)

end Sys2Proof.Machine
end

