-- ==== Sys2Proof/Machine/Stack.lean ====
section
/-! DEFINITION. The stack instructions POP and PUSH (`44_stack_pop_push.md`). -/

namespace Sys2Proof.Machine

/-- POP reg (R126): `value <- MemRead(x[7], 1)`, `x[reg] <- value`, then `x[7] <- x[7] + 1` evaluated after the write to
`x[reg]` (R127), `pc <- pc + 2`. -/
def execPop (reg : Byte) (s : State) : Host.Outcome State Fault Refusal :=
  finish s (do
    let r ← regIndex reg
    let value ← memRead s (stackAddress s)
    return (s.writeReg r value.toNat).incrementSp.advance 2)

/-- PUSH reg (R129): `x[7] <- x[7] - 1`, then `MemWrite(x[7], 1, x[reg])` with address and data both read after the
decrement (R130), `pc <- pc + 2`. -/
def execPush (reg : Byte) (s : State) : Host.Outcome State Fault Refusal :=
  finish s (do
    let r ← regIndex reg
    let t ← memWrite s.decrementSp (stackAddress s.decrementSp) (s.decrementSp.readReg r)
    return t.advance 2)

end Sys2Proof.Machine
end

