-- ==== Sys2Proof/Machine/System.lean ====
section
/-! DEFINITION. The system instruction HLT (`41_system_hlt.md`). -/

namespace Sys2Proof.Machine

/-- HLT (R95): `run <- HALTED`. The PC stays at the HLT's own address (decision D4, log 6). -/
def execHlt (s : State) : Host.Outcome State Fault Refusal := finish s (.ok s.halt)

end Sys2Proof.Machine
end

