-- ==== Sys2Proof/Syntax.lean ====
section
/-! DEFINITION. The instructions: one constructor per row of `spec/opcode_table.json`, each carrying its operand bytes
raw, as `30_encoding.md` R70 asks ("carrying its operand bytes raw (as bytes 0 to 255, not yet checked as register
indices)"). -/

namespace Sys2Proof

/-- The six instructions (`30_encoding.md` R66), in the table's order. -/
inductive Instr where
  /-- HLT (`41_system_hlt.md` R95). -/
  | hlt
  /-- LDI reg, imm (`42_ldi_prn.md` R100). -/
  | ldi (reg imm : Byte)
  /-- PRN reg (`42_ldi_prn.md` R102). -/
  | prn (reg : Byte)
  /-- MUL regA, regB (`43_alu_mul.md` R115). -/
  | mul (regA regB : Byte)
  /-- POP reg (`44_stack_pop_push.md` R126). -/
  | pop (reg : Byte)
  /-- PUSH reg (`44_stack_pop_push.md` R129). -/
  | push (reg : Byte)
deriving DecidableEq, Repr

/-- The handlers of the dispatch table, by name (`40_engine_cycle.md` R83). -/
inductive Opcode where
  | hlt | ldi | prn | mul | pop | push
deriving DecidableEq, Repr

/-- The four instruction formats (`30_encoding.md` R61). -/
inductive Format where
  /-- zero operands -/
  | z
  /-- one register -/
  | r
  /-- register, immediate -/
  | ri
  /-- two registers -/
  | rr
deriving DecidableEq, Repr

end Sys2Proof
end

