-- ==== Sys2Proof/Decode.lean ====
section
/-! DEFINITION. Decoding, total on any list of bytes and rejecting by name, and after it the encoder
(`30_encoding.md` R60 to R70, `40_engine_cycle.md` R82, R83). -/

namespace Sys2Proof

/-! ## The opcode map (R66, R83) -/

/-- One row of the opcode map: the whole opcode byte, its handler and its format. -/
structure DispatchRow where
  byte   : Byte
  opcode : Opcode
  format : Format
deriving DecidableEq, Repr

/-- The dispatch table, "exactly six entries" (`40_engine_cycle.md` R83; `30_encoding.md` R66, in the table's order). -/
def dispatchTable : List DispatchRow :=
  [ ⟨0b00000001, .hlt, .z⟩,
    ⟨0b10000010, .ldi, .ri⟩,
    ⟨0b01000111, .prn, .r⟩,
    ⟨0b10100010, .mul, .rr⟩,
    ⟨0b01000110, .pop, .r⟩,
    ⟨0b01000101, .push, .r⟩ ]

/-- Look an opcode byte up: "an exact comparison of all 8 bits" (R62). -/
def dispatchRow (b : Byte) : Option DispatchRow := dispatchTable.find? (fun row => row.byte == b)

/-- `Dispatch(b)`: a handler or absent (R70). -/
def dispatch (b : Byte) : Option Opcode := (dispatchRow b).map DispatchRow.opcode

/-- The length in bytes of each format (R61). -/
def Format.length : Format → Nat
  | .z => 1
  | .r => 2
  | .ri => 3
  | .rr => 3

/-! ## Decoding -/

/-- What decoding a list of bytes answers. -/
inductive Decoded where
  /-- an instruction, and the bytes after it -/
  | instr (i : Instr) (rest : List Byte)
  /-- the opcode byte is not in the dispatch table (R67) -/
  | unknownOpcode (byte0 : Byte)
  /-- the list ends before the instruction's byte number `k` (byte 0 is the opcode) -/
  | missing (k : Nat)
deriving DecidableEq, Repr

/-- Read the operand bytes of a handler, in ascending address order (R61, `40_engine_cycle.md` R85). -/
def decodeOperands : Opcode → List Byte → Decoded
  | .hlt, rest => .instr .hlt rest
  | .ldi, reg :: imm :: rest => .instr (.ldi reg imm) rest
  | .ldi, [_] => .missing 2
  | .ldi, [] => .missing 1
  | .prn, reg :: rest => .instr (.prn reg) rest
  | .prn, [] => .missing 1
  | .mul, regA :: regB :: rest => .instr (.mul regA regB) rest
  | .mul, [_] => .missing 2
  | .mul, [] => .missing 1
  | .pop, reg :: rest => .instr (.pop reg) rest
  | .pop, [] => .missing 1
  | .push, reg :: rest => .instr (.push reg) rest
  | .push, [] => .missing 1

/-- Decode the instruction at the head of a list of bytes: the opcode byte first, and no operand byte of an unknown
opcode (R65, R70, `40_engine_cycle.md` R82). -/
def decode : List Byte → Decoded
  | [] => .missing 0
  | byte0 :: rest =>
    match dispatch byte0 with
    | none => .unknownOpcode byte0
    | some op => decodeOperands op rest

/-- The bytes of an opcode-table word: byte `k` is bits `8k+7 .. 8k`, the bits at and above `nbits` are zero, and the
list has as many bytes as the longest instruction. The first byte is the one at the lowest address (R43). -/
def wordBytes (nbits w : Nat) : List Byte :=
  (List.range Config.maxInstrLength).map (fun k => BitVec.ofNat 8 (w % 2 ^ nbits / 2 ^ (8 * k)))

/-- The instruction that `decode` reads from an opcode-table word. -/
def decodeTableWord (nbits w : Nat) : Option Instr :=
  match decode (wordBytes nbits w) with
  | .instr i _ => some i
  | .unknownOpcode _ => none
  | .missing _ => none

/-! ## Encoding -/

/-- The handler of an instruction. -/
def Instr.opcode : Instr → Opcode
  | .hlt => .hlt
  | .ldi _ _ => .ldi
  | .prn _ => .prn
  | .mul _ _ => .mul
  | .pop _ => .pop
  | .push _ => .push

/-- The opcode byte of each handler, from the hexadecimal column of R66. -/
def Opcode.byte : Opcode → Byte
  | .hlt => 0x01
  | .ldi => 0x82
  | .prn => 0x47
  | .mul => 0xA2
  | .pop => 0x46
  | .push => 0x45

/-- The format of each handler (R66). -/
def Opcode.format : Opcode → Format
  | .hlt => .z
  | .ldi => .ri
  | .prn => .r
  | .mul => .rr
  | .pop => .r
  | .push => .r

/-- The operand bytes in address order (R61). -/
def Instr.operandBytes : Instr → List Byte
  | .hlt => []
  | .ldi reg imm => [reg, imm]
  | .prn reg => [reg]
  | .mul regA regB => [regA, regB]
  | .pop reg => [reg]
  | .push reg => [reg]

/-- The bytes of an instruction in ascending address order, opcode first (R60, R61). -/
def encode (i : Instr) : List Byte := i.opcode.byte :: i.operandBytes

/-- The length of an instruction in bytes, "fixed per opcode" (R60, R65). -/
def Instr.length (i : Instr) : Nat := i.opcode.format.length

end Sys2Proof
end

