-- ==== Sys2Proof/Machine/Fetch.lean ====
section
/-! DEFINITION. Fetching the instruction at the PC: the bytes at `pc`, `pc + 1`, `pc + 2` that exist, decoded
(`40_engine_cycle.md` R81, R82, R85, R86). Reads have no side effect (`20_memory.md` R41, R45), so reading a byte the
instruction does not have is unobservable; the reads that FAIL are those of R86, in its order. -/

namespace Sys2Proof.Machine

/-- The bytes at `pc`, `pc + 1`, `pc + 2` whose address is at most 255, in ascending address order, computed without
wrapping (`10_state.md` R25). -/
def fetchWindow (s : State) : List Byte :=
  ((List.range Config.maxInstrLength).filter (fun k => decide (s.pc + k < Config.memSize))).map
    (fun k => s.mem.read (s.pc + k))

/-- Fetch, decode and operand fetch: the instruction at the PC, or the fatal error of the first phase that fails
(R81, R82, R86; the order is R148). A byte the instruction needs and the window lacks is at an address above 255. -/
def fetchInstr (s : State) : Except Raised Instr :=
  match decode (fetchWindow s) with
  | .instr i _ => .ok i
  | .unknownOpcode byte0 => .error ⟨.unknownOpcode, byte0.toNat⟩
  | .missing k => .error ⟨.addressOutOfRange, s.pc + k⟩

/-- Place an opcode-table word where the next step fetches: its bytes at `pc`, `pc + 1`, `pc + 2`, and the run state
RUNNING with no error record, without which no step exists (log 16). -/
def placeWord (s : State) (nbits w : Nat) : State :=
  { s with mem := s.mem.storeBytes s.pc (wordBytes nbits w), run := .running, err := none }

end Sys2Proof.Machine
end

