-- ==== Sys2Proof/Machine/Step.lean ====
section
/-! DEFINITION. One fetch-decode-execute cycle (`40_engine_cycle.md` R80). -/

namespace Sys2Proof.Machine

/-- One step. It is defined when the run state is RUNNING (R80): the fetched instruction is executed, or the fatal error
of the fetch is raised. "In a terminal run state no step exists" (R89): the step is stuck under a name of its own. -/
def step (s : State) : Host.Outcome State Fault Refusal :=
  match s.run with
  | .halted => .fault .engineHalted
  | .faulted => .fault .engineFaulted
  | .running =>
    match fetchInstr s with
    | .ok i => exec i s
    | .error e => .next (s.raise e)

/-- The state in which the next step runs the given opcode-table word (log 16). -/
def State.withFetchWord (s : State) (nbits w : Nat) : State := placeWord s nbits w

end Sys2Proof.Machine
end

