-- ==== Sys2Proof/Machine/Reference.lean ====
section
/-! DEFINITION. The reference pseudocode of one step, `Step(S)` of `40_engine_cycle.md` R91, transcribed line by line and
independently of the decoder, the dispatcher and the meanings. It is not the model: it is what the model's step is stated
to equal. -/

namespace Sys2Proof.Machine

/-- The body of `Step(S)` (R91): the effect, or the fatal error raised. -/
def referenceBody (s : State) : Except Raised State := do
  let byte0 ← memRead s s.pc
  if byte0 = 0x01 then
    return { s with run := .halted }
  else if byte0 = 0x82 then
    let byte1 ← memRead s (s.pc + 1)
    let byte2 ← memRead s (s.pc + 2)
    if h : byte1.toNat ≤ 7 then
      return { s with x := s.x.set byte1.toNat byte2, pc := s.pc + 3 }
    else throw ⟨.registerIndexOutOfRange, byte1.toNat⟩
  else if byte0 = 0x47 then
    let byte1 ← memRead s (s.pc + 1)
    if h : byte1.toNat ≤ 7 then
      return { s with out := s.out ++ [s.x[byte1.toNat]], pc := s.pc + 2 }
    else throw ⟨.registerIndexOutOfRange, byte1.toNat⟩
  else if byte0 = 0xA2 then
    let byte1 ← memRead s (s.pc + 1)
    let byte2 ← memRead s (s.pc + 2)
    if h1 : byte1.toNat ≤ 7 then
      if h2 : byte2.toNat ≤ 7 then
        return { s with x := s.x.set byte1.toNat (s.x[byte1.toNat] * s.x[byte2.toNat]), pc := s.pc + 3 }
      else throw ⟨.registerIndexOutOfRange, byte2.toNat⟩
    else throw ⟨.registerIndexOutOfRange, byte1.toNat⟩
  else if byte0 = 0x46 then
    let byte1 ← memRead s (s.pc + 1)
    if h : byte1.toNat ≤ 7 then
      let value ← memRead s s.x[7].toNat
      let x1 := s.x.set byte1.toNat value
      let x2 := x1.set 7 (x1[7] + 1)
      return { s with x := x2, pc := s.pc + 2 }
    else throw ⟨.registerIndexOutOfRange, byte1.toNat⟩
  else if byte0 = 0x45 then
    let byte1 ← memRead s (s.pc + 1)
    if h : byte1.toNat ≤ 7 then
      let x1 := s.x.set 7 (s.x[7] - 1)
      let t ← memWrite { s with x := x1 } x1[7].toNat x1[byte1.toNat]
      return { t with pc := s.pc + 2 }
    else throw ⟨.registerIndexOutOfRange, byte1.toNat⟩
  else throw ⟨.unknownOpcode, byte0.toNat⟩

/-- `Step(S)` (R91): "`raise` ends the step at once with the state otherwise unchanged". -/
def referenceStep (s : State) : State :=
  match referenceBody s with
  | .ok t => t
  | .error e => { s with run := .faulted, err := some ⟨e.kind, s.pc, e.info⟩ }

end Sys2Proof.Machine
end

