-- ==== Sys2Proof/WellFormed.lean ====
section
/-! DEFINITION. Which terms a program may be written with. Every `Instr` has an encoding, for "Operand bytes have no
illegal value as bytes" (`30_encoding.md` R69); what can be wrong with one is a register operand that names no register
(R63), which decodes and then faults when executed (`40_engine_cycle.md` R87). `Instr.wellFormed` is therefore the check
that every register operand is 0 to 7, the instructions the assembler syntax of R73 can write (log 15). The meanings do
not assume it. -/

namespace Sys2Proof

/-- "It is a valid register index when it is 0 to 7" (`30_encoding.md` R63). -/
def validRegister (b : Byte) : Bool := decide (b.toNat < Config.numRegs)

/-- The operand bytes that an instruction uses as register indices, in operand order (`40_engine_cycle.md` R87; the
immediate of LDI is not one). -/
def Instr.registerOperands : Instr → List Byte
  | .hlt => []
  | .ldi reg _ => [reg]
  | .prn reg => [reg]
  | .mul regA regB => [regA, regB]
  | .pop reg => [reg]
  | .push reg => [reg]

/-- Every register operand names one of R0 to R7 (R63, R73). -/
def Instr.wellFormed (i : Instr) : Bool := i.registerOperands.all validRegister

/-- A program image: the bytes the loader places from address 0 (`70_reset_and_hazards.md` R174). -/
abbrev Image := List Byte

/-- A valid image has at most 256 bytes (R174). -/
def Image.wellFormed (img : Image) : Bool := decide (img.length ≤ Config.memSize)

end Sys2Proof
end

