-- ==== Sys2Proof/Machine/Text.lean ====
section
/-! DEFINITION. The text around the machine: the sink's rendering of the output log (`10_state.md` R30), the assembler
syntax (`30_encoding.md` R73) and the program image format (R75). The engine's own state holds values, not text. Text is a
list of characters. -/

namespace Sys2Proof.Machine

/-- One decimal digit, or one binary digit. -/
def digit (n : Nat) : Char := Char.ofNat (48 + n % 10)

/-! ## The output sink (R30) -/

/-- `dec(v)`: the decimal numeral of an unsigned byte, "with no sign, no leading zeros" (R30). -/
def dec (v : Byte) : List Char :=
  let n := v.toNat
  if n < 10 then [digit n]
  else if n < 100 then [digit (n / 10), digit n]
  else [digit (n / 100), digit (n / 10), digit n]

/-- The line terminator, U+000A: of the sink by decision D12 (log 13), of an image file by the model's own choice (log
14). -/
def lineTerminator : Char := Char.ofNat 10

/-- The text at the sink: `dec(v)` and a line terminator for each value, in order (R30, R103). -/
def renderSink : List Byte → List Char
  | [] => []
  | v :: vs => dec v ++ lineTerminator :: renderSink vs

/-! ## The assembler syntax (R73) -/

/-- "registers written `R0` to `R7`"; an operand byte above 7 has no name. -/
def registerName (b : Byte) : Option (List Char) := if validRegister b then some ('R' :: dec b) else none

/-- The mnemonic in capitals, a space, then the operands separated by commas, immediates as decimal numerals (R73). -/
def instrText (i : Instr) : Option (List Char) :=
  match i with
  | .hlt => some ['H', 'L', 'T']
  | .ldi reg imm => (registerName reg).map (fun r => ['L', 'D', 'I', ' '] ++ r ++ ',' :: dec imm)
  | .prn reg => (registerName reg).map (fun r => ['P', 'R', 'N', ' '] ++ r)
  | .mul regA regB =>
    (registerName regA).bind (fun a => (registerName regB).map (fun b => ['M', 'U', 'L', ' '] ++ a ++ ',' :: b))
  | .pop reg => (registerName reg).map (fun r => ['P', 'O', 'P', ' '] ++ r)
  | .push reg => (registerName reg).map (fun r => ['P', 'U', 'S', 'H', ' '] ++ r)

/-! ## The program image text format (R75) -/

/-- The lines of a text. That U+000A ends a line of the image file is the model's choice (DESIGN CHOICE, log 14): R75, D25
and N16 name no character. -/
def textLines : List Char → List (List Char)
  | [] => [[]]
  | c :: cs =>
    if c = lineTerminator then [] :: textLines cs
    else match textLines cs with
      | [] => [[c]]
      | l :: ls => (c :: l) :: ls

/-- White space to trim: the space, tab and carriage return (PRESUMED, log 14: R75 says only "whitespace"). -/
def isBlank (c : Char) : Bool := c == ' ' || c == Char.ofNat 9 || c == Char.ofNat 13

/-- "The portion before the comment, trimmed of whitespace" (R75). -/
def lineBody (l : List Char) : List Char :=
  (((l.takeWhile (fun c => c != '#')).dropWhile isBlank).reverse.dropWhile isBlank).reverse

/-- A string of `0`/`1` characters parsed base 2, most significant bit first (R7, R75). -/
def parseBits : Nat → List Char → Option Nat
  | acc, [] => some acc
  | acc, c :: cs =>
    if c = '0' then parseBits (2 * acc) cs
    else if c = '1' then parseBits (2 * acc + 1) cs
    else none

/-- The bytes one line gives: none for a blank line, one for eight binary digits; any other line is not a valid image
line (decision D25, log 14). -/
def parseLine (l : List Char) : Option (List Byte) :=
  match lineBody l with
  | [] => some []
  | c :: cs => if cs.length = 7 then (parseBits 0 (c :: cs)).map (fun n => [BitVec.ofNat 8 n]) else none

/-- The bytes of a list of lines, in file order (R75: "Lines are loaded sequentially"). -/
def parseLines : List (List Char) → Option Image
  | [] => some []
  | l :: ls => (parseLine l).bind (fun b => (parseLines ls).map (fun bs => b ++ bs))

/-- Read a program image from its text (R75). -/
def parseImage (text : List Char) : Option Image := parseLines (textLines text)

/-- The eight binary digits of a byte, most significant first (R7). -/
def byteBits (b : Byte) : List Char := ([7, 6, 5, 4, 3, 2, 1, 0] : List Nat).map (fun k => digit (b.toNat / 2 ^ k % 2))

/-- Write an image as text: one line of eight binary digits per byte (R75), each ended by U+000A (DESIGN CHOICE, log 14). -/
def renderImage : Image → List Char
  | [] => []
  | b :: bs => byteBits b ++ lineTerminator :: renderImage bs

end Sys2Proof.Machine
end

