-- ==== Sys2Proof/Machine/Launch.lean ====
section
/-! DEFINITION. The host's ports around a run: load, launch, the run loop, the events and the read-back (`10_state.md` R33,
`70_reset_and_hazards.md` R174, R176, `40_engine_cycle.md` R89, R91). -/

namespace Sys2Proof.Machine

/-! ## The `load` port -/

/-- Between reset and the start of the run, read off the state (DEDUCED, log 21): RUNNING at the entry point. After a step
the PC is past it or the run state is terminal, for there is no control transfer (`40_engine_cycle.md` R90). -/
def State.awaitsRun (s : State) : Bool := decide (s.run = .running ∧ s.pc = Config.pcReset)

/-- The `load(a, b)` event is "accepted only between reset and the start of the run", for `0 <= a <= 255` (R33). -/
def State.loadAccepted (s : State) (a : Nat) : Bool := s.awaitsRun && decide (a < Config.memSize)

/-- The `load(a, b)` event (R33): one cell of memory and nothing else. An event that is not accepted changes nothing (R89
in a terminal run state; DEDUCED during a run and for an address the port does not carry, log 21). -/
def State.loadByte (s : State) (a : Nat) (b : Byte) : State :=
  if s.loadAccepted a then { s with mem := s.mem.write a b } else s

/-- One `load` event for each byte, at ascending addresses from `a`. -/
def State.loadFrom (s : State) (a : Nat) : List Byte → State
  | [] => s
  | b :: bs => State.loadFrom (s.loadByte a b) (a + 1) bs

/-- Load an image at ascending addresses from `LOAD_BASE` (R174). -/
def State.loadImage (s : State) (img : Image) : State := s.loadFrom Config.loadBase img

/-! ## Launch and run -/

/-- `Launch(b[0..n-1])`: reset, then the load of one image (R176); none when the image is longer than memory, which "is
not a valid launch" (R174, decision D15, log 14). -/
def launch (img : Image) : Option State :=
  if img.wellFormed then some (State.reset.loadImage img) else none

/-- `while run = RUNNING: Step(S)`, at most `n` times (R91). The state a run has reached, terminal or not. -/
def runLoop : Nat → State → State
  | 0, s => s
  | n + 1, s =>
    match step s with
    | .next t => runLoop n t
    | .fault _ => s
    | .refused _ => s

/-- The end of the run of a launched state: R180 shows that 129 steps are enough. -/
def runToEnd (s : State) : State := runLoop Config.maxSteps s

/-! ## The host's events and the read-back (R33) -/

/-- The events the host can send, all that enter the block (`10_state.md` R33; decision D13, log 20). -/
inductive HostEvent where
  /-- the `reset` port -/
  | reset
  /-- the `load(a, b)` port -/
  | load (a : Nat) (b : Byte)
  /-- the `run` port -/
  | run
deriving DecidableEq, Repr

/-- What an event does. `reset` is accepted in any state (R28); after `run` "the engine performs steps until the run state
is terminal", and in a terminal state it does nothing (decision D16, log 2). The host has no move while the run goes on
(`70_reset_and_hazards.md` R179, log 17), so the whole run is this one event's effect. -/
def State.onEvent (s : State) : HostEvent → State
  | .reset => State.reset
  | .load a b => s.loadByte a b
  | .run => runToEnd s

/-- What events do, one after another. -/
def State.onEvents (s : State) : List HostEvent → State
  | [] => s
  | e :: es => State.onEvents (s.onEvent e) es

/-- What the state read-back port carries: `x`, `pc`, `M` and `out` (R33). -/
structure ReadBack where
  x   : Vector Byte 8
  pc  : Nat
  mem : Memory
  out : List Byte
deriving DecidableEq, Repr

/-- The state read-back, which the host has "after the run state is terminal" and "not during a run" (R33; decision D23,
log 17). -/
def State.readBack (s : State) : Option ReadBack :=
  match s.run with
  | .running => none
  | .halted => some ⟨s.x, s.pc, s.mem, s.out⟩
  | .faulted => some ⟨s.x, s.pc, s.mem, s.out⟩

end Sys2Proof.Machine
end

