-- ==== Sys2Proof/Safety.lean ====
section
/-! DEFINITION. What a state of a run may look like, and what a successful run is. -/

namespace Sys2Proof.Machine

/-- What the error record of a FAULTED state says about that state (`60_exceptions.md` R142 to R145, R150;
`20_memory.md` R54: "the offending address of every AddressOutOfRange in a run is 256"). The PC is unchanged by the fault,
so the record's PC is the state's. -/
def State.ErrorExplained (s : State) (e : ErrorRecord) : Prop :=
  e.pc = s.pc ∧
    match e.kind with
    | .unknownOpcode => s.pc ≤ 255 ∧ e.info = (s.mem.read s.pc).toNat ∧ dispatch (s.mem.read s.pc) = none
    | .addressOutOfRange => e.info = 256 ∧ 254 ≤ s.pc
    | .registerIndexOutOfRange => 8 ≤ e.info ∧ e.info ≤ 255
    | .unsupportedOperation => False

/-- The invariants of `10_state.md` R36 that the types do not already give, what R54 and R116 say of the error record, and
where R95 leaves the PC. -/
structure State.Inv (s : State) : Prop where
  /-- memory is in canonical form -/
  mem_wf : s.mem.wf
  /-- `0 <= pc <= 256` (R25, R36) -/
  pc_le : s.pc ≤ 256
  /-- `err = none` exactly when `run` is not FAULTED (R36) -/
  err_iff : s.err = none ↔ s.run ≠ .faulted
  /-- the error record is one that a run can leave -/
  err_explained : ∀ e, s.err = some e → s.ErrorExplained e
  /-- "in the HALTED state the PC holds the address of the HLT opcode byte that halted the engine" (R95; decision D4, log
  6) -/
  halted_at_hlt : s.run = .halted → s.pc ≤ 255 ∧ s.mem.read s.pc = 0x01

/-- The run state allows no further step (R28, R89). -/
def State.terminal (s : State) : Prop := s.run ≠ .running

/-- A successful run: "HALTED is the single successful end of a run" (`41_system_hlt.md` R96, `60_exceptions.md` R152). -/
def EndsHalted (s : State) : Prop := (runToEnd s).run = .halted

/-- The values of the PRN instructions executed in the first `n` steps of a run, in the order executed
(`42_ldi_prn.md` R103). -/
def prnValues : Nat → State → List Byte
  | 0, _ => []
  | n + 1, s =>
    match step s with
    | .next t =>
      (match fetchInstr s with
        | .ok (.prn reg) => if h : reg.toNat < 8 then [s.readReg ⟨reg.toNat, h⟩] else []
        | _ => []) ++ prnValues n t
    | .fault _ => []
    | .refused _ => []

/-- Execute instructions one after another, stopping at the first that does not complete: used to state what a sequence
of handlers does from any state, wherever its bytes stand. -/
def execSeq : List Instr → State → Host.Outcome State Fault Refusal
  | [], s => .next s
  | i :: is, s =>
    match exec i s with
    | .next t => execSeq is t
    | .fault f => .fault f
    | .refused r => .refused r

end Sys2Proof.Machine
end

