-- ==== Sys2Proof/Certificates/Slice0/Obligations.lean ====
section
/-! DEFINITION. The statements for the provers. Each docstring names the rule it formalises and, where a clause rests on a
decision of the spec and not on its source, the decision and the log entry. -/

open Sys2Proof Sys2Proof.Machine

namespace Sys2Proof.Machine

/-! ## The words the statements use -/

/-- `x[i]` as a state shows it is the same in both states, but for the listed registers. -/
def SameRegistersExcept (rs : List RegIndex) (s t : State) : Prop := ∀ j, j ∉ rs → t.readReg j = s.readReg j

/-- Every byte of memory reads as before. -/
def SameMemory (s t : State) : Prop := ∀ a, t.mem.read a = s.mem.read a

/-- The run state and the error record are as before. -/
def SameStatus (s t : State) : Prop := t.run = s.run ∧ t.err = s.err

/-- The state after `raise kind(info)` in `s`, written out (`60_exceptions.md` R150). -/
def raisedState (s : State) (kind : ErrorKind) (info : Nat) : State :=
  { s with run := .faulted, err := some ⟨kind, s.pc, info⟩ }

/-- What HLT does (`41_system_hlt.md` R95). The PC clause is decision D4 (log 6). -/
def HltEffect (s t : State) : Prop :=
  t.run = .halted ∧ t.pc = s.pc ∧ SameRegistersExcept [] s t ∧ SameMemory s t ∧ t.out = s.out ∧ t.err = s.err

/-- What LDI does with a valid register operand (`42_ldi_prn.md` R100). -/
def LdiEffect (r : RegIndex) (imm : Byte) (s t : State) : Prop :=
  t.readReg r = imm ∧ SameRegistersExcept [r] s t ∧ t.pc = s.pc + 3 ∧ SameMemory s t ∧ t.out = s.out ∧ SameStatus s t

/-- What PRN does with a valid register operand (`42_ldi_prn.md` R102). -/
def PrnEffect (r : RegIndex) (s t : State) : Prop :=
  t.out = s.out ++ [s.readReg r] ∧ SameRegistersExcept [] s t ∧ t.pc = s.pc + 2 ∧ SameMemory s t ∧ SameStatus s t

/-- What MUL does with valid register operands (`43_alu_mul.md` R115, R114). -/
def MulEffect (a b : RegIndex) (s t : State) : Prop :=
  (t.readReg a).toNat = (s.readReg a).toNat * (s.readReg b).toNat % 256 ∧ SameRegistersExcept [a] s t ∧
    t.pc = s.pc + 3 ∧ SameMemory s t ∧ t.out = s.out ∧ SameStatus s t

/-- What POP does with a valid register operand (`44_stack_pop_push.md` R126, and R127 when `r` is 7): the byte at the
old `x[7]` goes to `x[r]`, and register 7, as it then is, moves up by one modulo 256. -/
def PopEffect (r : RegIndex) (s t : State) : Prop :=
  (r ≠ 7 → t.readReg r = s.mem.read (s.readReg 7).toNat ∧
    (t.readReg 7).toNat = ((s.readReg 7).toNat + 1) % 256) ∧
  (r = 7 → (t.readReg 7).toNat = ((s.mem.read (s.readReg 7).toNat).toNat + 1) % 256) ∧
  SameRegistersExcept [r, 7] s t ∧ t.pc = s.pc + 2 ∧ SameMemory s t ∧ t.out = s.out ∧ SameStatus s t

/-- What PUSH does with a valid register operand (`44_stack_pop_push.md` R129, and R130 when `r` is 7): register 7 moves
down by one modulo 256, and the byte at its new value, the address the meaning itself uses, becomes `x[r]` as it is after
the decrement. -/
def PushEffect (r : RegIndex) (s t : State) : Prop :=
  (t.readReg 7).toNat = ((s.readReg 7).toNat + 255) % 256 ∧ SameRegistersExcept [7] s t ∧
    stackAddress s.decrementSp = (t.readReg 7).toNat ∧
    t.mem.read (stackAddress s.decrementSp) = t.readReg r ∧
    (∀ a, a ≠ stackAddress s.decrementSp → t.mem.read a = s.mem.read a) ∧
    t.pc = s.pc + 2 ∧ t.out = s.out ∧ SameStatus s t

end Sys2Proof.Machine

/-! ## Reset and launch -/

/-- `10_state.md` R35. R7 = 0xF4, memory zero and RUNNING are the source's values. R0 to R6 = 0 is decision D2 (log 3), the
PC is decision D3 (log 4), `err` and `out` are D21 (log 18): those clauses are the spec's and the model's choice. -/
def Obligations.ResetLeavesTheTabulatedValues : Prop :=
  State.reset.readReg 7 = 0xF4 ∧ (∀ i : RegIndex, i ≠ 7 → State.reset.readReg i = 0x00) ∧ State.reset.pc = 0 ∧
    (∀ a, State.reset.mem.read a = 0x00) ∧ State.reset.run = .running ∧ State.reset.err = none ∧ State.reset.out = []

/-- `70_reset_and_hazards.md` R174, and R176, which the spec derives: the launch state is fixed by the image, and an image
has one exactly when it has at most 256 bytes (decision D15, log 14). The registers are those of reset (R0 to R6 by
decision D2, log 3). The PC clause is decision D3 (DEDUCED, log 4), RUNNING, no error and the empty log are D21 (log 18):
those clauses restate the spec's and the model's choice. -/
def Obligations.LaunchStateIsFixedByTheImage : Prop :=
  (∀ img : Image, (∃ s, launch img = some s) ↔ img.length ≤ 256) ∧
  ∀ (img : Image) (s : State), launch img = some s →
    (∀ a, a ≤ 255 → s.mem.read a = img.getD a 0x00) ∧
      (∀ i, s.readReg i = State.reset.readReg i) ∧ s.pc = 0 ∧ s.run = .running ∧ s.err = none ∧ s.out = []

/-! ## Registers, memory and the ALU -/

/-- `00_scope.md` R8: `wrap8(v)` is the unique `r` in 0 to 255 with `r ≡ v (mod 256)`, also for negative `v`. -/
def Obligations.Wrap8IsTheResidueModulo256 : Prop :=
  ∀ (v : Int) (r : Byte), wrap8 v = r ↔ (256 : Int) ∣ (r.toNat : Int) - v

/-- `10_state.md` R22: a register write stores `wrap8(v)` in one cell and changes no other cell; nothing records an
overflow, for no other field changes; an index byte of 8 to 255 is RegisterIndexOutOfRange and one of 0 to 7 is itself. -/
def Obligations.RegisterWriteStoresWrap8InOneCell : Prop :=
  (∀ (s : State) (i : RegIndex) (v : Int),
    (((s.writeReg i v).readReg i).toNat : Int) = v % 256 ∧ SameRegistersExcept [i] s (s.writeReg i v) ∧
      ∃ x, s.writeReg i v = { s with x := x }) ∧
  ∀ b : Byte, (∀ r, regIndex b = .ok r ↔ b.toNat = r.val) ∧
    (8 ≤ b.toNat → ∃ e, regIndex b = .error e ∧ e.kind = .registerIndexOutOfRange)

/-- `20_memory.md` R41 and R42, the two access primitives: bound check, one cell, nothing else. -/
def Obligations.MemoryPrimitivesCheckTheBoundAndTouchOneCell : Prop :=
  ∀ (s : State) (a : Nat) (v : Byte),
    (a ≤ 255 → memRead s a = .ok (s.mem.read a) ∧ ∃ m, memWrite s a v = .ok { s with mem := m } ∧
      memRead { s with mem := m } a = .ok v ∧ ∀ b, b ≠ a → memRead { s with mem := m } b = memRead s b) ∧
    (255 < a → memRead s a = .error ⟨.addressOutOfRange, a⟩ ∧ memWrite s a v = .error ⟨.addressOutOfRange, a⟩)

/-- `43_alu_mul.md` R110: the ALU's contract. Each recognised operation writes `wrap8` of the exact result into the first
register and changes nothing else; any other operation is UnsupportedOperation. -/
def Obligations.AluWritesWrap8OfTheExactResult : Prop :=
  (∀ (a b : RegIndex) (s : State),
    let p : Int := (s.readReg a).toNat
    let q : Int := (s.readReg b).toNat
    ∀ op v, (op = .add ∧ v = p + q) ∨ (op = .sub ∧ v = p - q) ∨ (op = .mul ∧ v = p * q) →
      ∃ t, alu op a b s = .ok t ∧ ((t.readReg a).toNat : Int) = v % 256 ∧ SameRegistersExcept [a] s t ∧
        t.pc = s.pc ∧ SameMemory s t ∧ t.out = s.out ∧ SameStatus s t) ∧
  ∀ (a b : RegIndex) (s : State), ∃ e, alu .other a b s = .error e ∧ e.kind = .unsupportedOperation

/-- `43_alu_mul.md` R112: ADD is `p + q` or `p + q - 256`, the carry lost, and it doubles when `a = b`. -/
def Obligations.AluAddLosesTheCarry : Prop :=
  (∀ (a b : RegIndex) (s : State), ∃ t, alu .add a b s = .ok t ∧
    ((s.readReg a).toNat + (s.readReg b).toNat ≤ 255 →
      (t.readReg a).toNat = (s.readReg a).toNat + (s.readReg b).toNat) ∧
    (255 < (s.readReg a).toNat + (s.readReg b).toNat →
      (t.readReg a).toNat = (s.readReg a).toNat + (s.readReg b).toNat - 256)) ∧
  ∀ (a : RegIndex) (s : State), ∃ t, alu .add a a s = .ok t ∧ (t.readReg a).toNat = 2 * (s.readReg a).toNat % 256

/-- `43_alu_mul.md` R113: SUB is `p - q` or `p - q + 256`, first minus second, the borrow lost, and 0 when `a = b`. -/
def Obligations.AluSubLosesTheBorrow : Prop :=
  (∀ (a b : RegIndex) (s : State), ∃ t, alu .sub a b s = .ok t ∧
    ((s.readReg b).toNat ≤ (s.readReg a).toNat →
      (t.readReg a).toNat = (s.readReg a).toNat - (s.readReg b).toNat) ∧
    ((s.readReg a).toNat < (s.readReg b).toNat →
      (t.readReg a).toNat = (s.readReg a).toNat + 256 - (s.readReg b).toNat)) ∧
  ∀ (a : RegIndex) (s : State), ∃ t, alu .sub a a s = .ok t ∧ t.readReg a = 0

/-- `43_alu_mul.md` R114: MUL is the low 8 bits of the exact 16-bit product, and it squares when `a = b`. -/
def Obligations.AluMulKeepsTheLowByte : Prop :=
  (∀ (a b : RegIndex) (s : State), ∃ t, alu .mul a b s = .ok t ∧
    t.readReg a = (((s.readReg a).setWidth 16 * (s.readReg b).setWidth 16).setWidth 8 : Byte)) ∧
  ∀ (a : RegIndex) (s : State), ∃ t, alu .mul a a s = .ok t ∧ (t.readReg a).toNat = (s.readReg a).toNat ^ 2 % 256

/-- The algebraic laws that `43_alu_mul.md` R118 derives: ADD and MUL are commutative and associative on values, SUB undoes
ADD, and ADD of `q` is SUB of `wrap8(256 - q)`. -/
def Obligations.AluAlgebraicLaws : Prop :=
  ∀ p q u : Byte,
    aluValue .add p q = aluValue .add q p ∧ aluValue .mul p q = aluValue .mul q p ∧
    (aluValue .add p q).bind (fun v => aluValue .add v u) = (aluValue .add q u).bind (fun v => aluValue .add p v) ∧
    (aluValue .mul p q).bind (fun v => aluValue .mul v u) = (aluValue .mul q u).bind (fun v => aluValue .mul p v) ∧
    (aluValue .add p q).bind (fun v => aluValue .sub v q) = some p ∧
    aluValue .add p q = aluValue .sub p (wrap8 (256 - q.toNat))

/-! ## Encoding -/

/-- `40_engine_cycle.md` R83 and `30_encoding.md` R66: the dispatch table has exactly its six entries. -/
def Obligations.DispatchTableHasExactlySixEntries : Prop :=
  ∀ (b : Byte) (op : Opcode), dispatch b = some op ↔
    (b = 0x01 ∧ op = .hlt) ∨ (b = 0x82 ∧ op = .ldi) ∨ (b = 0x47 ∧ op = .prn) ∨ (b = 0xA2 ∧ op = .mul) ∨
      (b = 0x46 ∧ op = .pop) ∨ (b = 0x45 ∧ op = .push)

/-- One word of each row, written out from the patterns of `30_encoding.md` R61 and R66 (byte 0 in bits 7 to 0), decodes to
the instruction it stands for; a neighbour of an opcode does not decode (vector V-FLT-9). -/
def Obligations.SampleWordsDecode : Prop :=
  decodeTableWord 8 0b00000001 = some .hlt ∧
  decodeTableWord 24 0b00001000_00000101_10000010 = some (.ldi 5 8) ∧
  decodeTableWord 16 0b00000100_01000111 = some (.prn 4) ∧
  decodeTableWord 24 0b00000111_00000001_10100010 = some (.mul 1 7) ∧
  decodeTableWord 16 0b00000010_01000110 = some (.pop 2) ∧
  decodeTableWord 16 0b00000110_01000101 = some (.push 6) ∧
  decodeTableWord 8 0b10000011 = none

/-- Decode and encode agree in both directions, for every instruction with every operand byte: a list of bytes decodes to
`i` exactly when it begins with the encoding of `i`, so each instruction has one encoding and each encoding one meaning
(`30_encoding.md` R61, R66, R70). -/
def Obligations.DecodeIsTheInverseOfEncode : Prop :=
  ∀ (bs : List Byte) (i : Instr) (rest : List Byte), decode bs = .instr i rest ↔ bs = encode i ++ rest

/-- Decoding rejects by name, exactly: an unknown opcode byte is one of the 250 others whatever follows it, and the bytes
end too early exactly when a known opcode's format is longer than they are (`30_encoding.md` R65, R67). -/
def Obligations.DecodeRejectsExactlyTheOthers : Prop :=
  (∀ (bs : List Byte) (b : Byte), decode bs = .unknownOpcode b ↔
    b ∉ ([0x01, 0x45, 0x46, 0x47, 0x82, 0xA2] : List Byte) ∧ ∃ rest, bs = b :: rest) ∧
  ∀ (bs : List Byte) (k : Nat), decode bs = .missing k ↔
    bs.length = k ∧ (bs = [] ∨ ∃ op rest, bs = Opcode.byte op :: rest ∧ bs.length < op.format.length)

/-! ## The step -/

/-- A step runs the decoded instruction: the fetch sees the bytes at `pc`, `pc + 1`, `pc + 2` that exist, and when they
decode to `i` the step of a RUNNING state is `exec i` (`40_engine_cycle.md` R80; nothing is added around it, R88). The addresses are computed without wrapping by decision D1
(log 5). -/
def Obligations.StepRunsTheDecodedInstruction : Prop :=
  ∀ s : State,
    (∀ k, (fetchWindow s)[k]? = if k < 3 ∧ s.pc + k ≤ 255 then some (s.mem.read (s.pc + k)) else none) ∧
    ∀ i rest, s.run = .running → decode (fetchWindow s) = .instr i rest → step s = exec i s

/-- When the encoding of `i` stands in memory at the PC, within addresses 0 to 255, a RUNNING step is `exec i`
(`20_memory.md` R43, `30_encoding.md` R61, `40_engine_cycle.md` R80). -/
def Obligations.StepRunsTheEncodedInstruction : Prop :=
  ∀ (s : State) (i : Instr), s.run = .running →
    (∀ k b, (encode i)[k]? = some b → s.pc + k ≤ 255 ∧ s.mem.read (s.pc + k) = b) → step s = exec i s

/-- The step equals the reference pseudocode of `40_engine_cycle.md` R91, transcribed apart from the decoder and the
meanings. It rests on decisions D1, D4, D6 and D7 (logs 5, 6, 8, 9), which R91 assembles. -/
def Obligations.StepIsTheReferencePseudocode : Prop :=
  ∀ s : State, s.run = .running → step s = .next (referenceStep s)

/-- A step exists exactly in the RUNNING state, where it is total; in HALTED and FAULTED there is none
(`40_engine_cycle.md` R80, R89; decision D16, log 2: the model answers a named fault there). -/
def Obligations.StepExistsExactlyWhenRunning : Prop :=
  ∀ s : State, (s.run = .running ↔ ∃ t, step s = .next t) ∧
    (s.run = .halted → step s = .fault .engineHalted) ∧ (s.run = .faulted → step s = .fault .engineFaulted)

/-! ## What each instruction does -/

/-- HLT completes in every state with the effect of `41_system_hlt.md` R95; that the PC stays is decision D4 (log 6). -/
def Obligations.HltCompletes : Prop := ∀ s : State, ∃ t, exec .hlt s = .next t ∧ HltEffect s t

/-- LDI with a valid register operand completes with the effect of `42_ldi_prn.md` R100, which is the property of R101. -/
def Obligations.LdiCompletes : Prop :=
  ∀ (s : State) (reg imm : Byte) (r : RegIndex), reg.toNat = r.val →
    ∃ t, exec (.ldi reg imm) s = .next t ∧ LdiEffect r imm s t

/-- PRN with a valid register operand completes with the effect of `42_ldi_prn.md` R102. -/
def Obligations.PrnCompletes : Prop :=
  ∀ (s : State) (reg : Byte) (r : RegIndex), reg.toNat = r.val →
    ∃ t, exec (.prn reg) s = .next t ∧ PrnEffect r s t

/-- MUL with valid register operands completes with the effect of `43_alu_mul.md` R115, which is the property of R119 for
`a ≠ b` and for `a = b`. -/
def Obligations.MulCompletes : Prop :=
  ∀ (s : State) (regA regB : Byte) (a b : RegIndex), regA.toNat = a.val → regB.toNat = b.val →
    ∃ t, exec (.mul regA regB) s = .next t ∧ MulEffect a b s t

/-- POP with a valid register operand completes with the effect of `44_stack_pop_push.md` R126 and R127. -/
def Obligations.PopCompletes : Prop :=
  ∀ (s : State) (reg : Byte) (r : RegIndex), reg.toNat = r.val →
    ∃ t, exec (.pop reg) s = .next t ∧ PopEffect r s t

/-- PUSH with a valid register operand completes with the effect of `44_stack_pop_push.md` R129 and R130. -/
def Obligations.PushCompletes : Prop :=
  ∀ (s : State) (reg : Byte) (r : RegIndex), reg.toNat = r.val →
    ∃ t, exec (.push reg) s = .next t ∧ PushEffect r s t

/-- `44_stack_pop_push.md` R125: the stack pointer starts at 244, moves down by one before the PUSH writes at it and up by
one after the POP has read at it, modulo 256, one byte per entry; after a PUSH register 7 holds the address of the byte
just pushed. The stored register and the popped register are not 7 (R127 and R130 are in PopEffect and PushEffect). -/
def Obligations.StackIsDescendingPreDecrementPostIncrement : Prop :=
  (State.reset.readReg 7).toNat = 244 ∧
  ∀ (s : State) (reg : Byte) (r : RegIndex), reg.toNat = r.val → r ≠ 7 →
    (∃ t, exec (.push reg) s = .next t ∧ t.readReg 7 = s.readReg 7 - 1 ∧
      t.mem.read (t.readReg 7).toNat = s.readReg r ∧
      ∀ a, a ≠ (t.readReg 7).toNat → t.mem.read a = s.mem.read a) ∧
    ∃ t, exec (.pop reg) s = .next t ∧ t.readReg r = s.mem.read (s.readReg 7).toNat ∧
      t.readReg 7 = s.readReg 7 + 1 ∧ SameMemory s t

/-! ## The whole rule of each instruction, at the step -/

/-- `42_ldi_prn.md` R100, whole: from a RUNNING state with 0x82 at the PC, the operand reads come first, then the register
check, then the effect. In this and the next four statements the clause of the PC at the top of memory is decision D1
(log 5), what a fault leaves is D6 and D8 (logs 8, 10), the order of the checks is D7 (log 9), and that register 7 is an
ordinary operand is D18 (log 20). -/
def Obligations.LdiStepFollowsItsRule : Prop :=
  ∀ s : State, s.run = .running → s.pc ≤ 255 → s.mem.read s.pc = 0x82 →
    (254 ≤ s.pc → step s = .next (raisedState s .addressOutOfRange 256)) ∧
    (s.pc ≤ 253 → 8 ≤ (s.mem.read (s.pc + 1)).toNat →
      step s = .next (raisedState s .registerIndexOutOfRange (s.mem.read (s.pc + 1)).toNat)) ∧
    ∀ r : RegIndex, s.pc ≤ 253 → (s.mem.read (s.pc + 1)).toNat = r.val →
      ∃ t, step s = .next t ∧ LdiEffect r (s.mem.read (s.pc + 2)) s t

/-- `42_ldi_prn.md` R102, whole: PRN at the step. -/
def Obligations.PrnStepFollowsItsRule : Prop :=
  ∀ s : State, s.run = .running → s.pc ≤ 255 → s.mem.read s.pc = 0x47 →
    (s.pc = 255 → step s = .next (raisedState s .addressOutOfRange 256)) ∧
    (s.pc ≤ 254 → 8 ≤ (s.mem.read (s.pc + 1)).toNat →
      step s = .next (raisedState s .registerIndexOutOfRange (s.mem.read (s.pc + 1)).toNat)) ∧
    ∀ r : RegIndex, s.pc ≤ 254 → (s.mem.read (s.pc + 1)).toNat = r.val → ∃ t, step s = .next t ∧ PrnEffect r s t

/-- `43_alu_mul.md` R115, whole: MUL at the step, the first bad operand reported. -/
def Obligations.MulStepFollowsItsRule : Prop :=
  ∀ s : State, s.run = .running → s.pc ≤ 255 → s.mem.read s.pc = 0xA2 →
    (254 ≤ s.pc → step s = .next (raisedState s .addressOutOfRange 256)) ∧
    (s.pc ≤ 253 → 8 ≤ (s.mem.read (s.pc + 1)).toNat →
      step s = .next (raisedState s .registerIndexOutOfRange (s.mem.read (s.pc + 1)).toNat)) ∧
    (s.pc ≤ 253 → (s.mem.read (s.pc + 1)).toNat ≤ 7 → 8 ≤ (s.mem.read (s.pc + 2)).toNat →
      step s = .next (raisedState s .registerIndexOutOfRange (s.mem.read (s.pc + 2)).toNat)) ∧
    ∀ a b : RegIndex, s.pc ≤ 253 → (s.mem.read (s.pc + 1)).toNat = a.val → (s.mem.read (s.pc + 2)).toNat = b.val →
      ∃ t, step s = .next t ∧ MulEffect a b s t

/-- `44_stack_pop_push.md` R126, whole, with R127 for `reg = 7`: POP at the step. -/
def Obligations.PopStepFollowsItsRule : Prop :=
  ∀ s : State, s.run = .running → s.pc ≤ 255 → s.mem.read s.pc = 0x46 →
    (s.pc = 255 → step s = .next (raisedState s .addressOutOfRange 256)) ∧
    (s.pc ≤ 254 → 8 ≤ (s.mem.read (s.pc + 1)).toNat →
      step s = .next (raisedState s .registerIndexOutOfRange (s.mem.read (s.pc + 1)).toNat)) ∧
    ∀ r : RegIndex, s.pc ≤ 254 → (s.mem.read (s.pc + 1)).toNat = r.val → ∃ t, step s = .next t ∧ PopEffect r s t

/-- `44_stack_pop_push.md` R129, whole, with R130 for `reg = 7`: PUSH at the step. In a faulting case the stack pointer is
not decremented and memory is not written. -/
def Obligations.PushStepFollowsItsRule : Prop :=
  ∀ s : State, s.run = .running → s.pc ≤ 255 → s.mem.read s.pc = 0x45 →
    (s.pc = 255 → step s = .next (raisedState s .addressOutOfRange 256)) ∧
    (s.pc ≤ 254 → 8 ≤ (s.mem.read (s.pc + 1)).toNat →
      step s = .next (raisedState s .registerIndexOutOfRange (s.mem.read (s.pc + 1)).toNat)) ∧
    ∀ r : RegIndex, s.pc ≤ 254 → (s.mem.read (s.pc + 1)).toNat = r.val → ∃ t, step s = .next t ∧ PushEffect r s t

/-! ## Fatal errors -/

/-- `60_exceptions.md` R144: every register operand above 7 raises RegisterIndexOutOfRange with the first offending byte,
in every instruction that has one. The record's PC is the instruction's. What the fault leaves and records, and the moment
of the check, are decisions D5 to D8 (logs 7 to 10). -/
def Obligations.RegisterOperandAboveSevenRaises : Prop :=
  ∀ (s : State) (b c : Byte), 8 ≤ b.toNat →
    exec (.ldi b c) s = .next (raisedState s .registerIndexOutOfRange b.toNat) ∧
    exec (.prn b) s = .next (raisedState s .registerIndexOutOfRange b.toNat) ∧
    exec (.mul b c) s = .next (raisedState s .registerIndexOutOfRange b.toNat) ∧
    (c.toNat ≤ 7 → exec (.mul c b) s = .next (raisedState s .registerIndexOutOfRange b.toNat)) ∧
    exec (.pop b) s = .next (raisedState s .registerIndexOutOfRange b.toNat) ∧
    exec (.push b) s = .next (raisedState s .registerIndexOutOfRange b.toNat)

/-- `40_engine_cycle.md` R82 and `60_exceptions.md` R142: a byte of the PC's cell that is none of the six opcodes raises
UnknownOpcode with that byte, also at address 255, and changes nothing but the run state and the error record. FAULTED and
the record's contents are decisions D5 and D8 (logs 7, 10). -/
def Obligations.UnknownOpcodeRaises : Prop :=
  ∀ s : State, s.run = .running → s.pc ≤ 255 →
    s.mem.read s.pc ∉ ([0x01, 0x45, 0x46, 0x47, 0x82, 0xA2] : List Byte) →
      step s = .next (raisedState s .unknownOpcode (s.mem.read s.pc).toNat)

/-- `40_engine_cycle.md` R81: a fetch past address 255 raises AddressOutOfRange with the PC as the offending address. That
such a PC arises at all is decision D1 (log 5). -/
def Obligations.FetchPastTheEndRaises : Prop :=
  ∀ s : State, s.run = .running → 255 < s.pc → step s = .next (raisedState s .addressOutOfRange s.pc)

/-- A step is all or nothing (`40_engine_cycle.md` R92, `60_exceptions.md` R150; decision D6, log 8): a step that ends
FAULTED changed the run state and the error record, whose PC is the state's, and nothing else. -/
def Obligations.FaultingStepChangesOnlyRunAndError : Prop :=
  ∀ s t : State, step s = .next t → t.run = .faulted → ∃ kind info, t = raisedState s kind info

/-- The table of `60_exceptions.md` R146, which the spec derives: exactly when a RUNNING step ends FAULTED, by the bytes at
the PC. -/
def Obligations.FaultConditionsAreTheTable : Prop :=
  ∀ s t : State, step s = .next t →
    (t.run = .faulted ↔
      255 < s.pc ∨
      (s.mem.read s.pc ∉ ([0x01, 0x45, 0x46, 0x47, 0x82, 0xA2] : List Byte)) ∨
      (s.mem.read s.pc = 0x82 ∧ (254 ≤ s.pc ∨ 8 ≤ (s.mem.read (s.pc + 1)).toNat)) ∨
      (s.mem.read s.pc = 0xA2 ∧ (254 ≤ s.pc ∨ 8 ≤ (s.mem.read (s.pc + 1)).toNat ∨
        8 ≤ (s.mem.read (s.pc + 2)).toNat)) ∨
      (s.mem.read s.pc ∈ ([0x45, 0x46, 0x47] : List Byte) ∧ (s.pc = 255 ∨ 8 ≤ (s.mem.read (s.pc + 1)).toNat)))

/-- No program raises UnsupportedOperation (`43_alu_mul.md` R116, which the spec derives), and no fault of a step is an
address other than the fetch's own or 256 (`20_memory.md` R54). -/
def Obligations.UnsupportedOperationIsUnreachable : Prop :=
  ∀ (s t : State) (e : ErrorRecord), step s = .next t → t.run = .faulted → t.err = some e →
    e.kind ≠ .unsupportedOperation ∧ (e.kind = .addressOutOfRange → e.info = 256 ∨ (255 < s.pc ∧ e.info = s.pc))

/-! ## Whole-machine rules -/

/-- `10_state.md` R28: HALTED is entered only by HLT, and HLT always enters it. -/
def Obligations.HaltedOnlyThroughHlt : Prop :=
  ∀ s t : State, step s = .next t → (t.run = .halted ↔ s.pc ≤ 255 ∧ s.mem.read s.pc = 0x01)

/-- `10_state.md` R24 and R26, `40_engine_cycle.md` R90: there is no control transfer. A step that stays RUNNING moves the
PC by the length of the instruction fetched, 2 or 3; every other step leaves it (for HLT, decision D4, log 6). -/
def Obligations.PcMovesByTheInstructionLength : Prop :=
  ∀ s t : State, step s = .next t →
    (t.run = .running → (s.mem.read s.pc ∈ ([0x45, 0x46, 0x47] : List Byte) ∧ t.pc = s.pc + 2 ∧ t.pc ≤ 256) ∨
      (s.mem.read s.pc ∈ ([0x82, 0xA2] : List Byte) ∧ t.pc = s.pc + 3 ∧ t.pc ≤ 256)) ∧
    (t.run ≠ .running → t.pc = s.pc)

/-- `10_state.md` R27, conflict C1: of all steps only PUSH's writes memory, and only the cell below the stack pointer. -/
def Obligations.OnlyPushWritesMemory : Prop :=
  ∀ (s t : State) (a : Nat), step s = .next t → t.mem.read a ≠ s.mem.read a →
    s.mem.read s.pc = 0x45 ∧ a = stackAddress s.decrementSp ∧ t.readReg 7 = s.readReg 7 - 1

/-- `10_state.md` R30: only PRN emits, one value, at the end of the log. -/
def Obligations.OnlyPrnEmits : Prop :=
  ∀ s t : State, step s = .next t → t.out = s.out ∨
    (s.mem.read s.pc = 0x47 ∧ ∃ r : RegIndex, (s.mem.read (s.pc + 1)).toNat = r.val ∧ t.out = s.out ++ [s.readReg r])

/-- The register table of `10_state.md` R23: which step can change which register. -/
def Obligations.RegistersChangeOnlyAsTabulated : Prop :=
  ∀ (s t : State) (j : RegIndex), step s = .next t → t.readReg j ≠ s.readReg j →
    (s.mem.read s.pc ∈ ([0x82, 0xA2] : List Byte) ∧ (s.mem.read (s.pc + 1)).toNat = j.val) ∨
    (s.mem.read s.pc = 0x46 ∧ ((s.mem.read (s.pc + 1)).toNat = j.val ∨ j = 7)) ∨
    (s.mem.read s.pc = 0x45 ∧ j = 7)

/-- `20_memory.md` R52, which the spec derives: the byte a PUSH stores at the next instruction's address is the opcode
byte the next step fetches. -/
def Obligations.StoreIsSeenByTheNextFetch : Prop :=
  ∀ (s : State) (r : RegIndex), s.run = .running → s.pc ≤ 253 → s.mem.read s.pc = 0x45 →
    (s.mem.read (s.pc + 1)).toNat = r.val → stackAddress s.decrementSp = s.pc + 2 →
      ∃ t, step s = .next t ∧ (fetchWindow t).head? = some (t.readReg r) ∧
        (t.readReg r = 0x01 → ∃ u, step t = .next u ∧ u.run = .halted)

/-! ## Runs -/

/-- `70_reset_and_hazards.md` R180, which the spec derives: whatever the memory and the registers, and whatever a PUSH
overwrites, 129 steps reach a terminal run state, and no state after that differs. -/
def Obligations.EveryRunEndsWithin129Steps : Prop :=
  ∀ (s : State) (n : Nat), (runLoop 129 s).terminal ∧ runLoop (129 + n) s = runLoop 129 s

/-- `42_ldi_prn.md` R103: along any run the output log gains exactly the values of the PRN instructions executed, in the
order executed, and a value emitted before a fatal error stays. -/
def Obligations.OutputLogIsThePrnValuesInOrder : Prop :=
  (∀ (s : State) (n : Nat), (runLoop n s).out = s.out ++ prnValues n s) ∧
  ∀ s t : State, step s = .next t → t.run = .faulted → t.out = s.out

/-- The invariant of `10_state.md` R36, with canonical memory and an explained error record, holds after reset. -/
def Obligations.ResetMeetsTheInvariant : Prop := State.reset.Inv

/-- It holds in every launch state (`70_reset_and_hazards.md` R176). -/
def Obligations.LaunchMeetsTheInvariant : Prop := ∀ (img : Image) (s : State), launch img = some s → s.Inv

/-- Every step keeps it (`10_state.md` R36: "State invariants that hold after reset and after every step"). -/
def Obligations.EveryStepKeepsTheInvariant : Prop := ∀ s t : State, s.Inv → step s = .next t → t.Inv

/-- The end of a run (`70_reset_and_hazards.md` R178): every launched image, run to its end, ends HALTED on an HLT with no
error record, or FAULTED with a record that names the failing PC and explains the failure. -/
def Obligations.EveryLaunchEndsHaltedOrExplained : Prop :=
  ∀ (img : Image) (s : State), launch img = some s →
    let t := runToEnd s
    (t.run = .halted ∧ t.err = none ∧ t.pc ≤ 255 ∧ t.mem.read t.pc = 0x01) ∨
    (t.run = .faulted ∧ ∃ e, t.err = some e ∧ t.ErrorExplained e)

/-! ## The host's ports -/

/-- `10_state.md` R33, the `load` port: "accepted only between reset and the start of the run", it writes one byte; at any
other time, once a step has been performed, and for an address above 255, memory and the rest stay. That RUNNING with PC 0
shows the window, and that an event not accepted changes nothing, are DEDUCED (log 21). -/
def Obligations.LoadPortIsOpenOnlyBeforeTheRun : Prop :=
  ∀ (s : State) (a : Nat) (b : Byte),
    (s.run = .running → s.pc = 0 → a ≤ 255 →
      ∃ m, s.loadByte a b = { s with mem := m } ∧ m.read a = b ∧ ∀ c, c ≠ a → m.read c = s.mem.read c) ∧
    (s.run ≠ .running ∨ s.pc ≠ 0 ∨ 255 < a → s.loadByte a b = s) ∧
    ∀ (t : State) (n : Nat), step s = .next t → (runLoop n t).loadByte a b = runLoop n t

/-- `70_reset_and_hazards.md` R176, which the spec derives, over the ports of `10_state.md` R33: whatever the state was,
the `reset` event and then one `load` event for each byte, at addresses 0, 1, 2 and on, make the launch state of the image
(at most 256 bytes: decision D15, log 14). -/
def Obligations.LaunchIsResetThenLoads : Prop :=
  ∀ (s : State) (img : Image), img.length ≤ 256 →
    launch img = some (s.onEvents (.reset :: img.zipIdx.map (fun c => .load c.2 c.1)))

/-- `10_state.md` R28 and R33: there is no read-back while the run state is RUNNING; after the `run` event it is terminal,
the read-back is open, and only `reset` changes anything: a `load` (log 21) and a `run` (decision D16, log 2) do nothing.
That the host sees nothing during a run is decision D23 (log 17). -/
def Obligations.RunEventEndsTheRunAndOpensTheReadBack : Prop :=
  (∀ s : State, s.run = .running → s.readBack = none) ∧
  (∀ s : State, (s.onEvent .run).terminal) ∧
  ∀ t : State, t.terminal → t.readBack = some ⟨t.x, t.pc, t.mem, t.out⟩ ∧ t.onEvent .run = t ∧
    (∀ a b, t.onEvent (.load a b) = t) ∧ t.onEvent .reset = State.reset

/-! ## The stack -/

/-- `44_stack_pop_push.md` R132 (a): `LDI(reg,v); PUSH(reg); LDI(reg,0); POP(reg)` restores the value and the stack
pointer, for a register other than 7. -/
def Obligations.PushThenPopRoundTrips : Prop :=
  ∀ (s : State) (reg v : Byte) (r : RegIndex), reg.toNat = r.val → r ≠ 7 →
    ∃ t, execSeq [.ldi reg v, .push reg, .ldi reg 0, .pop reg] s = .next t ∧
      t.readReg r = v ∧ SameRegistersExcept [r] s t ∧ t.pc = s.pc + 10

/-- `44_stack_pop_push.md` R132 (b): a PUSH immediately followed by a POP leaves the stack pointer unchanged, moves the
pushed value, and leaves it in the touched cell; the popped register is not 7. -/
def Obligations.PushThenPopBalancesTheStack : Prop :=
  ∀ (s : State) (b c : Byte) (r q : RegIndex), b.toNat = r.val → c.toNat = q.val → q ≠ 7 →
    ∃ u t, exec (.push b) s = .next u ∧ exec (.pop c) u = .next t ∧ t.readReg 7 = s.readReg 7 ∧
      t.readReg q = u.readReg r ∧ SameMemory u t ∧ t.mem.read (s.readReg 7 - 1).toNat = u.readReg r

/-- `44_stack_pop_push.md` R132: "Order is last in, first out". -/
def Obligations.StackIsLastInFirstOut : Prop :=
  ∀ (s : State) (a b c d : Byte) (ra rb rc rd : RegIndex),
    a.toNat = ra.val → b.toNat = rb.val → c.toNat = rc.val → d.toNat = rd.val →
    ra ≠ 7 → rb ≠ 7 → rc ≠ 7 → rd ≠ 7 → rc ≠ rd →
    ∃ t, execSeq [.push a, .push b, .pop c, .pop d] s = .next t ∧
      t.readReg rc = s.readReg rb ∧ t.readReg rd = s.readReg ra ∧ t.readReg 7 = s.readReg 7

/-- `44_stack_pop_push.md` R131 and `70_reset_and_hazards.md` R182, which the spec derives: `n` pushes from a stack pointer
of at least `n` leave it `n` lower and touch only the `n` cells below where it stood. -/
def Obligations.PushesStayBelowTheStackPointer : Prop :=
  ∀ (s : State) (regs : List Byte), (∀ b ∈ regs, b.toNat ≤ 7) → regs.length ≤ (s.readReg 7).toNat →
    ∃ t, execSeq (regs.map Instr.push) s = .next t ∧
      (t.readReg 7).toNat = (s.readReg 7).toNat - regs.length ∧ SameRegistersExcept [7] s t ∧
      ∀ a, a < (s.readReg 7).toNat - regs.length ∨ (s.readReg 7).toNat ≤ a → t.mem.read a = s.mem.read a

/-! ## Text -/

/-- `10_state.md` R30 and `42_ldi_prn.md` R102: the sink shows one more line per PRN, the decimal numeral of the register.
The terminator U+000A is decision D12 (log 13). -/
def Obligations.SinkShowsOneLinePerPrn : Prop :=
  ∀ (s : State) (reg : Byte) (r : RegIndex), reg.toNat = r.val →
    ∃ t, exec (.prn reg) s = .next t ∧ renderSink t.out = renderSink s.out ++ dec (s.readReg r) ++ [Char.ofNat 10]

/-- `30_encoding.md` R75: an image written as lines of eight binary digits reads back as the same bytes in the same
order. That U+000A ends a line is the model's choice (log 14). -/
def Obligations.ImageTextReadsBack : Prop := ∀ img : Image, parseImage (renderImage img) = some img
end

