-- ==== Sys2Proof/Laws/Decode.lean ====
section
/-! SUPPORT. What the dispatch table, the decoder and the encoder can answer. -/

namespace Sys2Proof

/-- No two rows of the dispatch table overlap. -/
theorem dispatchTable_no_overlap : dispatchTable.Pairwise (fun r q => r.byte ≠ q.byte) := by decide

/-- The table's format column agrees with the encoder's (`30_encoding.md` R66). -/
theorem dispatchTable_format : ∀ row ∈ dispatchTable, row.format = row.opcode.format ∧ row.byte = row.opcode.byte := by
  decide

/-- Each handler is found under its own opcode byte. -/
@[simp] theorem dispatch_byte (op : Opcode) : dispatch op.byte = some op := by cases op <;> rfl

/-- A handler is found under no other byte: the comparison is of all 8 bits (`30_encoding.md` R62). -/
theorem dispatch_eq_some {b : Byte} {op : Opcode} (h : dispatch b = some op) : b = op.byte := by
  have key : ∀ b : Byte, ∀ row, dispatchRow b = some row → b = row.opcode.byte := by
    intro b row hrow
    have hmem := List.mem_of_find?_eq_some hrow
    have hb := List.find?_some hrow
    rw [← (dispatchTable_format row hmem).2]
    simpa using (beq_iff_eq.mp hb).symm
  simp only [dispatch, Option.map_eq_some_iff] at h
  obtain ⟨row, hrow, rfl⟩ := h
  exact key b row hrow

theorem dispatch_eq_some_iff (b : Byte) (op : Opcode) : dispatch b = some op ↔ b = op.byte :=
  ⟨dispatch_eq_some, fun h => h ▸ dispatch_byte op⟩

/-- The bytes no handler is found under. -/
theorem dispatch_eq_none_iff (b : Byte) :
    dispatch b = none ↔ b ≠ 0x01 ∧ b ≠ 0x82 ∧ b ≠ 0x47 ∧ b ≠ 0xA2 ∧ b ≠ 0x46 ∧ b ≠ 0x45 := by
  constructor
  · intro h
    refine ⟨?_, ?_, ?_, ?_, ?_, ?_⟩ <;> rintro rfl <;> exact absurd h (by decide)
  · rintro ⟨h1, h2, h3, h4, h5, h6⟩
    cases hd : dispatch b with
    | none => rfl
    | some op => exact absurd (dispatch_eq_some hd) (by cases op <;> assumption)

/-- Decoding a list with a known opcode byte reads that handler's operands. -/
theorem decode_cons_byte (op : Opcode) (rest : List Byte) : decode (op.byte :: rest) = decodeOperands op rest := by
  simp [decode]

end Sys2Proof
end

