-- ==== Sys2Proof/Laws/State.lean ====
section
/-! SUPPORT. One lemma per field per update of State, so that no proof unfolds a record update; and the fields of
`State.reset`. -/

namespace Sys2Proof.Machine

section Fields
variable (s t : State) (i : RegIndex) (v : Int) (n : Nat) (b : Byte) (e : Raised)

/-! ### writeReg -/
@[simp] theorem State.writeReg_pc : (s.writeReg i v).pc = s.pc := rfl
@[simp] theorem State.writeReg_mem : (s.writeReg i v).mem = s.mem := rfl
@[simp] theorem State.writeReg_run : (s.writeReg i v).run = s.run := rfl
@[simp] theorem State.writeReg_err : (s.writeReg i v).err = s.err := rfl
@[simp] theorem State.writeReg_out : (s.writeReg i v).out = s.out := rfl

/-! ### advance -/
@[simp] theorem State.advance_x : (s.advance n).x = s.x := rfl
@[simp] theorem State.advance_pc : (s.advance n).pc = s.pc + n := rfl
@[simp] theorem State.advance_mem : (s.advance n).mem = s.mem := rfl
@[simp] theorem State.advance_run : (s.advance n).run = s.run := rfl
@[simp] theorem State.advance_err : (s.advance n).err = s.err := rfl
@[simp] theorem State.advance_out : (s.advance n).out = s.out := rfl
@[simp] theorem State.readReg_advance : (s.advance n).readReg i = s.readReg i := rfl

/-! ### emit -/
@[simp] theorem State.emit_x : (s.emit b).x = s.x := rfl
@[simp] theorem State.emit_pc : (s.emit b).pc = s.pc := rfl
@[simp] theorem State.emit_mem : (s.emit b).mem = s.mem := rfl
@[simp] theorem State.emit_run : (s.emit b).run = s.run := rfl
@[simp] theorem State.emit_err : (s.emit b).err = s.err := rfl
@[simp] theorem State.emit_out : (s.emit b).out = s.out ++ [b] := rfl
@[simp] theorem State.readReg_emit : (s.emit b).readReg i = s.readReg i := rfl

/-! ### halt -/
@[simp] theorem State.halt_x : s.halt.x = s.x := rfl
@[simp] theorem State.halt_pc : s.halt.pc = s.pc := rfl
@[simp] theorem State.halt_mem : s.halt.mem = s.mem := rfl
@[simp] theorem State.halt_run : s.halt.run = .halted := rfl
@[simp] theorem State.halt_err : s.halt.err = s.err := rfl
@[simp] theorem State.halt_out : s.halt.out = s.out := rfl
@[simp] theorem State.readReg_halt : s.halt.readReg i = s.readReg i := rfl

/-! ### raise -/
@[simp] theorem State.raise_x : (s.raise e).x = s.x := rfl
@[simp] theorem State.raise_pc : (s.raise e).pc = s.pc := rfl
@[simp] theorem State.raise_mem : (s.raise e).mem = s.mem := rfl
@[simp] theorem State.raise_run : (s.raise e).run = .faulted := rfl
@[simp] theorem State.raise_err : (s.raise e).err = some ⟨e.kind, s.pc, e.info⟩ := rfl
@[simp] theorem State.raise_out : (s.raise e).out = s.out := rfl
@[simp] theorem State.readReg_raise : (s.raise e).readReg i = s.readReg i := rfl

/-! ### the stack pointer's steps -/
@[simp] theorem State.decrementSp_pc : s.decrementSp.pc = s.pc := rfl
@[simp] theorem State.decrementSp_mem : s.decrementSp.mem = s.mem := rfl
@[simp] theorem State.decrementSp_run : s.decrementSp.run = s.run := rfl
@[simp] theorem State.decrementSp_err : s.decrementSp.err = s.err := rfl
@[simp] theorem State.decrementSp_out : s.decrementSp.out = s.out := rfl
@[simp] theorem State.incrementSp_pc : s.incrementSp.pc = s.pc := rfl
@[simp] theorem State.incrementSp_mem : s.incrementSp.mem = s.mem := rfl
@[simp] theorem State.incrementSp_run : s.incrementSp.run = s.run := rfl
@[simp] theorem State.incrementSp_err : s.incrementSp.err = s.err := rfl
@[simp] theorem State.incrementSp_out : s.incrementSp.out = s.out := rfl

/-! ### settle -/
@[simp] theorem State.settle_ok : s.settle (.ok t) = t := rfl
@[simp] theorem State.settle_error : s.settle (.error e) = s.raise e := rfl

end Fields

/-! ### a memory update by record -/
@[simp] theorem State.readReg_with_mem (s : State) (m : Memory) (i : RegIndex) :
    State.readReg { s with mem := m } i = s.readReg i := rfl

/-! ### reset -/
@[simp] theorem State.reset_pc : State.reset.pc = 0 := rfl
@[simp] theorem State.reset_mem : State.reset.mem = [] := rfl
@[simp] theorem State.reset_run : State.reset.run = .running := rfl
@[simp] theorem State.reset_err : State.reset.err = none := rfl
@[simp] theorem State.reset_out : State.reset.out = [] := rfl

/-! ### reading a register after a write -/

/-- Reading any register after a register write. -/
theorem State.readReg_writeReg (s : State) (i j : RegIndex) (v : Int) :
    (s.writeReg i v).readReg j = if j = i then wrap8 v else s.readReg j := by
  by_cases h : j = i
  · subst h; simp [State.readReg, State.writeReg]
  · have : ¬ i.val = j.val := fun h' => h (Fin.ext h'.symm)
    simp [State.readReg, State.writeReg, h, this]

@[simp] theorem State.readReg_writeReg_self (s : State) (i : RegIndex) (v : Int) :
    (s.writeReg i v).readReg i = wrap8 v := by simp [State.readReg_writeReg]

/-- A register write changes no other register (`10_state.md` R22). -/
theorem State.readReg_writeReg_ne (s : State) {i j : RegIndex} (v : Int) (h : j ≠ i) :
    (s.writeReg i v).readReg j = s.readReg j := by simp [State.readReg_writeReg, h]

/-- Two register files that read alike are equal. -/
theorem State.x_ext {s t : State} (h : ∀ i, s.readReg i = t.readReg i) : s.x = t.x :=
  Vector.ext fun i hi => h ⟨i, hi⟩

end Sys2Proof.Machine
end

