-- ==== Sys2Proof/Laws/Ops.lean ====
section
/-! SUPPORT. What each shared operation can do: wrap8, the memory primitives, register validation, the stack pointer's
steps, the ALU, and the outcome of a handler. -/

namespace Sys2Proof.Machine

/-! ### wrap8 (`00_scope.md` R8) -/

/-- The value of `wrap8 v` is the non-negative residue of `v` modulo 256. -/
theorem wrap8_toNat (v : Int) : ((wrap8 v).toNat : Int) = v % 256 := by
  simp [wrap8, BitVec.toNat_ofInt]
  omega

/-- `wrap8` is the identity on a byte. -/
@[simp] theorem wrap8_natCast_toNat (b : Byte) : wrap8 (b.toNat : Int) = b := by
  simp [wrap8]

/-- The stack pointer's decrement is subtraction of bytes. -/
@[simp] theorem wrap8_toNat_sub_one (b : Byte) : wrap8 ((b.toNat : Int) - 1) = b - 1 := by
  apply BitVec.eq_of_toNat_eq
  have h := wrap8_toNat ((b.toNat : Int) - 1)
  have := b.isLt
  rw [BitVec.toNat_sub]
  simp
  omega

/-- The stack pointer's increment is addition of bytes. -/
@[simp] theorem wrap8_toNat_add_one (b : Byte) : wrap8 ((b.toNat : Int) + 1) = b + 1 := by
  apply BitVec.eq_of_toNat_eq
  have h := wrap8_toNat ((b.toNat : Int) + 1)
  have := b.isLt
  rw [BitVec.toNat_add]
  simp
  omega

/-! ### memory primitives (`20_memory.md` R41, R42) -/

theorem memRead_of_lt {s : State} {a : Nat} (h : a < 256) : memRead s a = .ok (s.mem.read a) := by
  simp [memRead, h]

theorem memRead_of_ge {s : State} {a : Nat} (h : 256 ≤ a) : memRead s a = .error ⟨.addressOutOfRange, a⟩ := by
  simp [memRead, Nat.not_lt.mpr h]

theorem memWrite_of_lt {s : State} {a : Nat} {v : Byte} (h : a < 256) :
    memWrite s a v = .ok { s with mem := s.mem.write a v } := by
  simp [memWrite, h]

theorem memWrite_of_ge {s : State} {a : Nat} {v : Byte} (h : 256 ≤ a) :
    memWrite s a v = .error ⟨.addressOutOfRange, a⟩ := by
  simp [memWrite, Nat.not_lt.mpr h]

/-! ### register operands (`30_encoding.md` R63) -/

/-- A register operand that names register `r`. -/
theorem regIndex_of_eq {b : Byte} {r : RegIndex} (h : b.toNat = r.val) : regIndex b = .ok r := by
  have hlt : b.toNat < 8 := h ▸ r.isLt
  have hr : (⟨b.toNat, hlt⟩ : RegIndex) = r := Fin.ext h
  simp only [regIndex, hlt, ↓reduceDIte, hr]

/-- A register operand above 7. -/
theorem regIndex_of_ge {b : Byte} (h : 8 ≤ b.toNat) : regIndex b = .error ⟨.registerIndexOutOfRange, b.toNat⟩ := by
  have : ¬ b.toNat < 8 := by omega
  simp [regIndex, this]

/-- A register operand either names a register or is above 7. -/
theorem register_operand_cases (b : Byte) : (∃ r : RegIndex, b.toNat = r.val) ∨ 8 ≤ b.toNat :=
  (Nat.lt_or_ge b.toNat 8).imp (fun h => ⟨⟨b.toNat, h⟩, rfl⟩) id

/-! ### the stack pointer (`44_stack_pop_push.md` R135) -/

/-- The stack pointer's index in the spelling every lemma uses. -/
@[simp] theorem sp_eq : Config.sp = 7 := rfl

/-- The stack address is what register 7 reads. -/
theorem stackAddress_eq (s : State) : stackAddress s = (s.readReg 7).toNat := rfl

/-- Register 7 always holds an address of the machine, so no data access is out of range (`20_memory.md` R54). -/
theorem stackAddress_lt (s : State) : stackAddress s < 256 := (s.readReg Config.sp).isLt

theorem State.readReg_decrementSp (s : State) (j : RegIndex) :
    s.decrementSp.readReg j = if j = 7 then s.readReg 7 - 1 else s.readReg j := by
  simp [State.decrementSp, State.readReg_writeReg]

theorem State.readReg_incrementSp (s : State) (j : RegIndex) :
    s.incrementSp.readReg j = if j = 7 then s.readReg 7 + 1 else s.readReg j := by
  simp [State.incrementSp, State.readReg_writeReg]

/-- The address PUSH stores to: register 7 less one, as a byte. -/
theorem stackAddress_decrementSp (s : State) :
    stackAddress s.decrementSp = (s.readReg 7 - 1).toNat := by
  simp [stackAddress, State.readReg_decrementSp]

/-! ### the ALU (`43_alu_mul.md` R110) -/

theorem alu_of_exact {op : AluOp} {a b : RegIndex} {s : State} {v : Int}
    (h : aluExact op (s.readReg a) (s.readReg b) = some v) : alu op a b s = .ok (s.writeReg a v) := by
  simp [alu, h]

/-- The byte MUL writes. -/
theorem wrap8_mul (p q : Byte) : wrap8 ((p.toNat : Int) * q.toNat) = p * q := by
  apply BitVec.eq_of_toNat_eq
  have h := wrap8_toNat ((p.toNat : Int) * q.toNat)
  rw [BitVec.toNat_mul]
  rw [← Int.natCast_mul] at h ⊢
  omega

/-! ### the outcome of a handler -/

@[simp] theorem finish_ok (s t : State) : finish s (.ok t) = .next t := rfl

@[simp] theorem finish_error (s : State) (e : Raised) : finish s (.error e) = .next (s.raise e) := rfl

end Sys2Proof.Machine
end

