-- ==== Sys2Proof/Laws/Exec.lean ====
section
/-! SUPPORT. One spec lemma per instruction: the state each meaning answers when its register operands name registers,
and the fatal error it raises when one does not. Later proofs cite these and do not unfold the meanings. -/

namespace Sys2Proof.Machine

variable {s : State} {b c imm : Byte} {r q : RegIndex}

theorem exec_hlt (s : State) : exec .hlt s = .next s.halt := rfl

theorem exec_ldi (h : b.toNat = r.val) :
    exec (.ldi b imm) s = .next ((s.writeReg r imm.toNat).advance 3) := by
  simp [exec, execLdi, regIndex_of_eq h, bind, Except.bind, pure, Except.pure]

theorem exec_ldi_bad (h : 8 ≤ b.toNat) :
    exec (.ldi b imm) s = .next (s.raise ⟨.registerIndexOutOfRange, b.toNat⟩) := by
  simp [exec, execLdi, regIndex_of_ge h, bind, Except.bind]

theorem exec_prn (h : b.toNat = r.val) : exec (.prn b) s = .next ((s.emit (s.readReg r)).advance 2) := by
  simp [exec, execPrn, regIndex_of_eq h, bind, Except.bind, pure, Except.pure]

theorem exec_prn_bad (h : 8 ≤ b.toNat) :
    exec (.prn b) s = .next (s.raise ⟨.registerIndexOutOfRange, b.toNat⟩) := by
  simp [exec, execPrn, regIndex_of_ge h, bind, Except.bind]

theorem exec_mul (hb : b.toNat = r.val) (hc : c.toNat = q.val) :
    exec (.mul b c) s =
      .next ((s.writeReg r ((s.readReg r).toNat * (s.readReg q).toNat : Int)).advance 3) := by
  have h : aluExact .mul (s.readReg r) (s.readReg q) = some ((s.readReg r).toNat * (s.readReg q).toNat : Int) := rfl
  simp [exec, execMul, regIndex_of_eq hb, regIndex_of_eq hc, alu_of_exact h, bind, Except.bind, pure, Except.pure]

theorem exec_mul_bad_first (h : 8 ≤ b.toNat) :
    exec (.mul b c) s = .next (s.raise ⟨.registerIndexOutOfRange, b.toNat⟩) := by
  simp [exec, execMul, regIndex_of_ge h, bind, Except.bind]

theorem exec_mul_bad_second (hb : b.toNat = r.val) (hc : 8 ≤ c.toNat) :
    exec (.mul b c) s = .next (s.raise ⟨.registerIndexOutOfRange, c.toNat⟩) := by
  simp [exec, execMul, regIndex_of_eq hb, regIndex_of_ge hc, bind, Except.bind]

theorem exec_pop (h : b.toNat = r.val) :
    exec (.pop b) s =
      .next ((s.writeReg r (s.mem.read (stackAddress s)).toNat).incrementSp.advance 2) := by
  simp [exec, execPop, regIndex_of_eq h, memRead_of_lt (stackAddress_lt s), bind, Except.bind, pure, Except.pure]

theorem exec_pop_bad (h : 8 ≤ b.toNat) :
    exec (.pop b) s = .next (s.raise ⟨.registerIndexOutOfRange, b.toNat⟩) := by
  simp [exec, execPop, regIndex_of_ge h, bind, Except.bind]

/-- The state a PUSH of register `r` leaves. -/
def pushed (s : State) (r : RegIndex) : State :=
  State.advance
    { s.decrementSp with mem := s.mem.write (stackAddress s.decrementSp) (s.decrementSp.readReg r) } 2

theorem exec_push (h : b.toNat = r.val) : exec (.push b) s = .next (pushed s r) := by
  simp [exec, execPush, regIndex_of_eq h, memWrite_of_lt (stackAddress_lt s.decrementSp), bind, Except.bind, pure,
    Except.pure, pushed]

theorem exec_push_bad (h : 8 ≤ b.toNat) :
    exec (.push b) s = .next (s.raise ⟨.registerIndexOutOfRange, b.toNat⟩) := by
  simp [exec, execPush, regIndex_of_ge h, bind, Except.bind]

/-! ### the fields a PUSH leaves -/
@[simp] theorem pushed_pc : (pushed s r).pc = s.pc + 2 := rfl
@[simp] theorem pushed_run : (pushed s r).run = s.run := rfl
@[simp] theorem pushed_err : (pushed s r).err = s.err := rfl
@[simp] theorem pushed_out : (pushed s r).out = s.out := rfl
@[simp] theorem pushed_mem :
    (pushed s r).mem = s.mem.write (stackAddress s.decrementSp) (s.decrementSp.readReg r) := rfl
@[simp] theorem readReg_pushed (j : RegIndex) : (pushed s r).readReg j = s.decrementSp.readReg j := rfl

/-! ### what any handler can do -/

/-- Everything a handler that began in `s` can leave: its effect, or RegisterIndexOutOfRange for a register operand above
7. -/
inductive Executed (s : State) : Instr → State → Prop where
  | hlt : Executed s .hlt s.halt
  | ldi (b imm : Byte) (r : RegIndex) (h : b.toNat = r.val) :
      Executed s (.ldi b imm) ((s.writeReg r imm.toNat).advance 3)
  | prn (b : Byte) (r : RegIndex) (h : b.toNat = r.val) : Executed s (.prn b) ((s.emit (s.readReg r)).advance 2)
  | mul (b c : Byte) (r q : RegIndex) (hb : b.toNat = r.val) (hc : c.toNat = q.val) :
      Executed s (.mul b c) ((s.writeReg r ((s.readReg r).toNat * (s.readReg q).toNat : Int)).advance 3)
  | pop (b : Byte) (r : RegIndex) (h : b.toNat = r.val) :
      Executed s (.pop b) ((s.writeReg r (s.mem.read (stackAddress s)).toNat).incrementSp.advance 2)
  | push (b : Byte) (r : RegIndex) (h : b.toNat = r.val) : Executed s (.push b) (pushed s r)
  | badRegister (i : Instr) (b : Byte) (hi : b ∈ i.registerOperands) (h : 8 ≤ b.toNat) :
      Executed s i (s.raise ⟨.registerIndexOutOfRange, b.toNat⟩)

/-- Every handler answers a next state, and it is one of those. -/
theorem exec_executed (i : Instr) (s : State) : ∃ t, exec i s = .next t ∧ Executed s i t := by
  cases i with
  | hlt => exact ⟨_, rfl, .hlt⟩
  | ldi b imm =>
    rcases register_operand_cases b with ⟨r, h⟩ | h
    · exact ⟨_, exec_ldi h, .ldi b imm r h⟩
    · exact ⟨_, exec_ldi_bad h, .badRegister _ b (by simp [Instr.registerOperands]) h⟩
  | prn b =>
    rcases register_operand_cases b with ⟨r, h⟩ | h
    · exact ⟨_, exec_prn h, .prn b r h⟩
    · exact ⟨_, exec_prn_bad h, .badRegister _ b (by simp [Instr.registerOperands]) h⟩
  | mul b c =>
    rcases register_operand_cases b with ⟨r, h⟩ | h
    · rcases register_operand_cases c with ⟨q, h'⟩ | h'
      · exact ⟨_, exec_mul h h', .mul b c r q h h'⟩
      · exact ⟨_, exec_mul_bad_second h h', .badRegister _ c (by simp [Instr.registerOperands]) h'⟩
    · exact ⟨_, exec_mul_bad_first h, .badRegister _ b (by simp [Instr.registerOperands]) h⟩
  | pop b =>
    rcases register_operand_cases b with ⟨r, h⟩ | h
    · exact ⟨_, exec_pop h, .pop b r h⟩
    · exact ⟨_, exec_pop_bad h, .badRegister _ b (by simp [Instr.registerOperands]) h⟩
  | push b =>
    rcases register_operand_cases b with ⟨r, h⟩ | h
    · exact ⟨_, exec_push h, .push b r h⟩
    · exact ⟨_, exec_push_bad h, .badRegister _ b (by simp [Instr.registerOperands]) h⟩

/-- The inversion lemma of `exec`. -/
theorem executed_of_exec {i : Instr} {s t : State} (h : exec i s = .next t) : Executed s i t := by
  obtain ⟨t', h', ht⟩ := exec_executed i s
  rw [h] at h'
  injection h' with h'
  exact h' ▸ ht

end Sys2Proof.Machine
end

