-- ==== Sys2Proof/Laws/Memory.lean ====
section
/-! SUPPORT. The laws of memory: read after write, the canonical form is kept by every operation, and memories in
canonical form that read alike are equal data. -/

namespace Sys2Proof.Machine

/-! ### reading -/

@[simp] theorem Memory.read_nil (a : Nat) : Memory.read [] a = 0 := rfl

theorem Memory.read_cons (c : Host.Cell) (m : Memory) (a : Nat) :
    Memory.read (c :: m) a = if c.1 = a then c.2 else Memory.read m a := by
  by_cases h : c.1 = a <;> simp [Memory.read, h]

/-- Looking up `b` in the cells below `a`. -/
theorem find_below (m : Memory) (a b : Nat) :
    (m.filter (fun c => decide (c.1 < a))).find? (fun c => c.1 == b) =
      if b < a then m.find? (fun c => c.1 == b) else none := by
  rw [List.find?_filter]
  split
  · congr 1; funext c; by_cases hc : c.1 = b <;> simp [hc]; omega
  · simp; intro x v _ h1 h2; omega

/-- Looking up `b` in the cells above `a`. -/
theorem find_above (m : Memory) (a b : Nat) :
    (m.filter (fun c => decide (a < c.1))).find? (fun c => c.1 == b) =
      if a < b then m.find? (fun c => c.1 == b) else none := by
  rw [List.find?_filter]
  split
  · congr 1; funext c; by_cases hc : c.1 = b <;> simp [hc]; omega
  · simp; intro x v _ h1 h2; omega

/-- Read after write (`20_memory.md` R42, R45). -/
theorem Memory.read_write (m : Memory) (a b : Nat) (v : Byte) :
    Memory.read (Memory.write m a v) b = if b = a then v else Memory.read m b := by
  simp only [Memory.read, Memory.write, List.find?_append, find_below, find_above]
  rcases Nat.lt_trichotomy b a with h | h | h
  · have h1 : ¬ a < b := by omega
    have h2 : ¬ b = a := by omega
    have h3 : ¬ a = b := by omega
    by_cases hv : v = 0#8 <;> simp [h, h1, h2, h3, hv]
  · subst h; by_cases hv : v = 0#8 <;> simp [hv]
  · have h1 : ¬ b < a := by omega
    have h2 : ¬ b = a := by omega
    have h3 : ¬ a = b := by omega
    by_cases hv : v = 0#8 <;> simp [h, h1, h2, h3, hv]

theorem Memory.read_write_ne (m : Memory) {a b : Nat} (v : Byte) (h : b ≠ a) :
    Memory.read (Memory.write m a v) b = Memory.read m b := by simp [Memory.read_write, h]

/-! ### the canonical form -/

/-- Reset memory is in canonical form. -/
theorem Memory.wf_nil : Memory.wf [] := by simp [Memory.wf]

/-- A write keeps the canonical form. -/
theorem Memory.write_wf {m : Memory} (h : Memory.wf m) {a : Nat} (ha : a < 256) (v : Byte) :
    Memory.wf (Memory.write m a v) := by
  obtain ⟨hs, hc⟩ := h
  have hlo : (m.filter (fun c => decide (c.1 < a))).Pairwise (fun c d => c.1 < d.1) := hs.sublist List.filter_sublist
  have hhi : (m.filter (fun c => decide (a < c.1))).Pairwise (fun c d => c.1 < d.1) := hs.sublist List.filter_sublist
  constructor
  · rw [Memory.write, List.pairwise_append, List.pairwise_append]
    refine ⟨⟨hlo, by split <;> simp, ?_⟩, hhi, ?_⟩
    · intro c hcm d hd
      split at hd <;> simp at hd hcm
      subst hd; exact hcm.2
    · intro c hcm d hd
      simp only [List.mem_append, List.mem_filter, decide_eq_true_eq] at hcm hd
      rcases hcm with ⟨_, h1⟩ | h1
      · omega
      · split at h1 <;> simp at h1
        subst h1; exact hd.2
  · intro c hcm
    simp only [Memory.write, List.mem_append, List.mem_filter, decide_eq_true_eq] at hcm
    rcases hcm with (⟨h1, _⟩ | h1) | ⟨h1, _⟩
    · exact hc c h1
    · split at h1 <;> simp at h1
      subst h1; exact ⟨ha, ‹_›⟩
    · exact hc c h1

/-- Storing bytes keeps the canonical form. -/
theorem Memory.storeBytes_wf {m : Memory} (h : Memory.wf m) (a : Nat) (bs : List Byte) :
    Memory.wf (Memory.storeBytes m a bs) := by
  induction bs generalizing m a with
  | nil => exact h
  | cons b bs ih =>
    apply ih
    split
    · exact Memory.write_wf h ‹_› b
    · exact h

/-- What a cell holds after bytes were stored: inside the range the byte, elsewhere what it held. -/
theorem Memory.read_storeBytes (m : Memory) (a : Nat) (bs : List Byte) (b : Nat) (hb : b < 256) :
    Memory.read (Memory.storeBytes m a bs) b =
      if h : a ≤ b ∧ b - a < bs.length then bs[b - a] else Memory.read m b := by
  induction bs generalizing m a with
  | nil => simp [Memory.storeBytes]
  | cons c bs ih =>
    rw [Memory.storeBytes, ih]
    by_cases hba : b = a
    · subst hba; simp [hb, Memory.read_write]
    · have hw : Memory.read (if a < Config.memSize then Memory.write m a c else m) b = Memory.read m b := by
        split
        · exact Memory.read_write_ne m c hba
        · rfl
      rw [hw]
      by_cases h1 : a + 1 ≤ b ∧ b - (a + 1) < bs.length
      · have h2 : a ≤ b ∧ b - a < (c :: bs).length := by simp; omega
        rw [dif_pos h1, dif_pos h2]
        have : b - a = (b - (a + 1)) + 1 := by omega
        simp [this]
      · have h2 : ¬ (a ≤ b ∧ b - a < (c :: bs).length) := by simp; omega
        rw [dif_neg h1, dif_neg h2]

/-! ### equal memories are equal data -/

/-- Below every listed address, a memory reads its reset content. -/
theorem Memory.read_below {m : Memory} {a : Nat} (h : ∀ c ∈ m, a < c.1) : Memory.read m a = 0 := by
  induction m with
  | nil => rfl
  | cons c m ih =>
    have hc : ¬ c.1 = a := by have := h c (by simp); omega
    rw [Memory.read_cons, if_neg hc]
    exact ih fun d hd => h d (by simp [hd])

/-- Two memories in canonical form that read alike everywhere are the same list. -/
theorem Memory.eq_of_read_eq {m n : Memory} (hm : Memory.wf m) (hn : Memory.wf n)
    (h : ∀ a, Memory.read m a = Memory.read n a) : m = n := by
  induction m generalizing n with
  | nil =>
    cases n with
    | nil => rfl
    | cons d n =>
      have := h d.1
      rw [Memory.read_cons] at this
      exact absurd (by simpa using this.symm) (hn.2 d (by simp)).2
  | cons c m ih =>
    obtain ⟨hms, hmc⟩ := hm
    rw [List.pairwise_cons] at hms
    cases n with
    | nil =>
      have := h c.1
      rw [Memory.read_cons] at this
      exact absurd (by simpa using this) (hmc c (by simp)).2
    | cons d n =>
      obtain ⟨hns, hnc⟩ := hn
      rw [List.pairwise_cons] at hns
      have hmz := (hmc c (by simp)).2
      have hnz := (hnc d (by simp)).2
      have haddr : c.1 = d.1 := by
        rcases Nat.lt_trichotomy c.1 d.1 with hl | he | hg
        · have h1 := h c.1
          rw [Memory.read_cons, if_pos rfl, Memory.read_cons, if_neg (by omega),
            Memory.read_below fun e he => Nat.lt_trans hl (hns.1 e he)] at h1
          exact absurd h1 hmz
        · exact he
        · have h1 := h d.1
          rw [Memory.read_cons, if_neg (by omega), Memory.read_below fun e he => Nat.lt_trans hg (hms.1 e he),
            Memory.read_cons, if_pos rfl] at h1
          exact absurd h1.symm hnz
      have hval : c.2 = d.2 := by
        have h1 := h c.1
        rwa [Memory.read_cons, if_pos rfl, Memory.read_cons, if_pos haddr.symm] at h1
      have hcd : c = d := Prod.ext haddr hval
      subst hcd
      congr 1
      refine ih ⟨hms.2, fun e he => hmc e (by simp [he])⟩ ⟨hns.2, fun e he => hnc e (by simp [he])⟩ fun a => ?_
      by_cases ha : c.1 = a
      · rw [← ha, Memory.read_below fun e he => hms.1 e he, Memory.read_below fun e he => hns.1 e he]
      · have h1 := h a
        rwa [Memory.read_cons, if_neg ha, Memory.read_cons, if_neg ha] at h1

end Sys2Proof.Machine
end

