-- ==== Sys2Proof/Laws/Step.lean ====
section
/-! SUPPORT. What one step can do: the fetch, the step's three outcomes, and the inversion lemma of the step. -/

namespace Sys2Proof.Machine

/-- The windows a fetch can see, by the PC (`40_engine_cycle.md` R81, R85, R86). -/
theorem fetchWindow_inside {s : State} (h : s.pc ≤ 253) :
    fetchWindow s = [s.mem.read s.pc, s.mem.read (s.pc + 1), s.mem.read (s.pc + 2)] := by
  have h0 : s.pc < 256 := by omega
  have h1 : s.pc + 1 < 256 := by omega
  have h2 : s.pc + 2 < 256 := by omega
  simp [fetchWindow, List.range, List.range.loop, List.filter, h0, h1, h2]

theorem fetchWindow_254 {s : State} (h : s.pc = 254) : fetchWindow s = [s.mem.read 254, s.mem.read 255] := by
  simp only [fetchWindow, h]; rfl

theorem fetchWindow_255 {s : State} (h : s.pc = 255) : fetchWindow s = [s.mem.read 255] := by
  simp only [fetchWindow, h]; rfl

theorem fetchWindow_outside {s : State} (h : 256 ≤ s.pc) : fetchWindow s = [] := by
  have h0 : ¬ s.pc < 256 := by omega
  have h1 : ¬ s.pc + 1 < 256 := by omega
  have h2 : ¬ s.pc + 2 < 256 := by omega
  simp [fetchWindow, List.range, List.range.loop, List.filter, h0, h1, h2]

/-- The window holds the cells at `pc`, `pc + 1`, `pc + 2` that exist. -/
theorem fetchWindow_getElem? (s : State) (k : Nat) :
    (fetchWindow s)[k]? = if k < 3 ∧ s.pc + k < 256 then some (s.mem.read (s.pc + k)) else none := by
  have hk : k = 0 ∨ k = 1 ∨ k = 2 ∨ 3 ≤ k := by omega
  have hpc : s.pc ≤ 253 ∨ s.pc = 254 ∨ s.pc = 255 ∨ 256 ≤ s.pc := by omega
  rcases hpc with h | h | h | h
  · rw [fetchWindow_inside h]
    rcases hk with rfl | rfl | rfl | hk
    · simp; omega
    · simp; omega
    · simp; omega
    · simp [Nat.not_lt.mpr hk]
  · rw [fetchWindow_254 h]
    rcases hk with rfl | rfl | rfl | hk
    · simp [h]
    · simp [h]
    · simp [h]
    · simp [Nat.not_lt.mpr hk, List.getElem?_eq_none, show 2 ≤ k by omega]
  · rw [fetchWindow_255 h]
    rcases hk with rfl | rfl | rfl | hk
    · simp [h]
    · simp [h]
    · simp [h]
    · simp [Nat.not_lt.mpr hk, List.getElem?_eq_none, show 1 ≤ k by omega]
  · rw [fetchWindow_outside h]
    simp; omega

/-! ### the step's outcomes -/

theorem step_of_fetch {s : State} {i : Instr} (hr : s.run = .running) (h : fetchInstr s = .ok i) :
    step s = exec i s := by
  simp [step, hr, h]

theorem step_of_fetch_error {s : State} {e : Raised} (hr : s.run = .running) (h : fetchInstr s = .error e) :
    step s = .next (s.raise e) := by
  simp [step, hr, h]

/-- The three ways a fetch fails, and the way it succeeds, with the cells it read. -/
inductive Fetched (s : State) : Except Raised Instr → Prop where
  /-- the opcode fetch is past the end of memory (R81) -/
  | outside (h : 256 ≤ s.pc) : Fetched s (.error ⟨.addressOutOfRange, s.pc⟩)
  /-- the opcode is unknown (R82) -/
  | unknown (h : s.pc ≤ 255) (hd : dispatch (s.mem.read s.pc) = none) :
      Fetched s (.error ⟨.unknownOpcode, (s.mem.read s.pc).toNat⟩)
  /-- an operand byte is past the end of memory, at address 256 (R86) -/
  | truncated (op : Opcode) (h : s.pc ≤ 255) (hd : s.mem.read s.pc = op.byte) (hl : 256 < s.pc + op.format.length) :
      Fetched s (.error ⟨.addressOutOfRange, 256⟩)
  /-- an instruction whose bytes are all in memory -/
  | instr (i : Instr) (hl : s.pc + i.length ≤ 256) (hd : s.mem.read s.pc = i.opcode.byte)
      (ho : ∀ k b, i.operandBytes[k]? = some b → s.mem.read (s.pc + 1 + k) = b) : Fetched s (.ok i)

/-- The opcode byte is the window's first. -/
theorem fetchWindow_cons {s : State} (h : s.pc ≤ 255) :
    ∃ rest, fetchWindow s = s.mem.read s.pc :: rest ∧
      ∀ k, rest[k]? = if k < 2 ∧ s.pc + 1 + k < 256 then some (s.mem.read (s.pc + 1 + k)) else none := by
  have h0 := fetchWindow_getElem? s 0
  cases hf : fetchWindow s with
  | nil => simp [hf] at h0; omega
  | cons b rest =>
    simp [hf, show s.pc < 256 by omega] at h0
    refine ⟨rest, by rw [h0], fun k => ?_⟩
    have hk := fetchWindow_getElem? s (k + 1)
    rw [hf, List.getElem?_cons_succ] at hk
    rw [hk, show s.pc + 1 + k = s.pc + (k + 1) by omega]
    simp only [show k + 1 < 3 ↔ k < 2 by omega]

/-- A handler whose operand bytes are all there decodes to an instruction that carries them. -/
theorem decodeOperands_complete (op : Opcode) (rest : List Byte) (h : op.format.length ≤ rest.length + 1) :
    ∃ i tail, decodeOperands op rest = .instr i tail ∧ i.opcode = op ∧ rest = i.operandBytes ++ tail := by
  cases op <;> rcases rest with _ | ⟨a, _ | ⟨b, rest⟩⟩ <;> simp [Opcode.format, Format.length] at h <;>
    exact ⟨_, _, rfl, rfl, rfl⟩

/-- A handler with an operand byte missing says which one is the first. -/
theorem decodeOperands_short (op : Opcode) (rest : List Byte) (h : rest.length + 1 < op.format.length) :
    decodeOperands op rest = .missing (rest.length + 1) := by
  cases op <;> rcases rest with _ | ⟨a, _ | ⟨b, rest⟩⟩ <;> simp [Opcode.format, Format.length] at h <;>
    first | rfl | omega

/-- Every fetch is one of these. -/
theorem fetched (s : State) : Fetched s (fetchInstr s) := by
  by_cases h256 : 256 ≤ s.pc
  · have : fetchInstr s = .error ⟨.addressOutOfRange, s.pc⟩ := by simp [fetchInstr, fetchWindow_outside h256, decode]
    exact this ▸ .outside h256
  have hpc : s.pc ≤ 255 := by omega
  obtain ⟨rest, hw, hrest⟩ := fetchWindow_cons hpc
  have hlen : rest.length = min 2 (255 - s.pc) := by
    have hlt : ∀ k, k < rest.length ↔ k < 2 ∧ s.pc + 1 + k < 256 := fun k => by
      have hk := hrest k
      by_cases hin : k < 2 ∧ s.pc + 1 + k < 256
      · rw [if_pos hin] at hk
        exact ⟨fun _ => hin, fun _ => (List.getElem?_eq_some_iff.mp hk).1⟩
      · rw [if_neg hin, List.getElem?_eq_none_iff] at hk
        exact ⟨fun h => absurd h (by omega), fun h => absurd h hin⟩
    have h1 := hlt rest.length
    have h2 := hlt (rest.length - 1)
    omega
  cases hd : dispatch (s.mem.read s.pc) with
  | none =>
    have : fetchInstr s = .error ⟨.unknownOpcode, (s.mem.read s.pc).toNat⟩ := by simp [fetchInstr, hw, decode, hd]
    exact this ▸ .unknown hpc hd
  | some op =>
    have hb := dispatch_eq_some hd
    have hdec : decode (fetchWindow s) = decodeOperands op rest := by rw [hw, hb, decode_cons_byte]
    have h3 : op.format.length ≤ 3 := by cases op <;> decide
    by_cases hl : 256 < s.pc + op.format.length
    · have hshort := decodeOperands_short op rest (by omega)
      have : fetchInstr s = .error ⟨.addressOutOfRange, 256⟩ := by
        simp only [fetchInstr, hdec, hshort]
        rw [show s.pc + (rest.length + 1) = 256 by omega]
      exact this ▸ .truncated op hpc hb hl
    · obtain ⟨i, tail, hi, rfl, hsplit⟩ := decodeOperands_complete op rest (by omega)
      have : fetchInstr s = .ok i := by simp only [fetchInstr, hdec, hi]
      refine this ▸ .instr i (by simpa [Instr.length] using Nat.le_of_not_lt hl) hb fun k b hk => ?_
      have hk' : rest[k]? = some b := by
        rw [hsplit, List.getElem?_append_left (by exact (List.getElem?_eq_some_iff.mp hk).1), hk]
      rw [hrest k] at hk'
      split at hk' <;> simp at hk'
      exact hk'

/-- Everything a RUNNING step can do. -/
inductive Stepped (s : State) : State → Prop where
  | outside (h : 256 ≤ s.pc) : Stepped s (s.raise ⟨.addressOutOfRange, s.pc⟩)
  | unknown (h : s.pc ≤ 255) (hd : dispatch (s.mem.read s.pc) = none) :
      Stepped s (s.raise ⟨.unknownOpcode, (s.mem.read s.pc).toNat⟩)
  | truncated (op : Opcode) (h : s.pc ≤ 255) (hd : s.mem.read s.pc = op.byte) (hl : 256 < s.pc + op.format.length) :
      Stepped s (s.raise ⟨.addressOutOfRange, 256⟩)
  | instr (i : Instr) (t : State) (hl : s.pc + i.length ≤ 256) (hd : s.mem.read s.pc = i.opcode.byte)
      (ho : ∀ k b, i.operandBytes[k]? = some b → s.mem.read (s.pc + 1 + k) = b) (ht : Executed s i t) : Stepped s t

/-- A RUNNING step answers a next state, and it is one of those. -/
theorem step_stepped {s : State} (hr : s.run = .running) : ∃ t, step s = .next t ∧ Stepped s t := by
  have h := fetched s
  generalize hf : fetchInstr s = r at h
  cases h with
  | outside h => exact ⟨_, step_of_fetch_error hr hf, .outside h⟩
  | unknown h hd => exact ⟨_, step_of_fetch_error hr hf, .unknown h hd⟩
  | truncated op h hd hl => exact ⟨_, step_of_fetch_error hr hf, .truncated op h hd hl⟩
  | instr i hl hd ho =>
    obtain ⟨t, he, ht⟩ := exec_executed i s
    exact ⟨t, (step_of_fetch hr hf).trans he, .instr i t hl hd ho ht⟩

/-- The inversion lemma of the step. -/
theorem stepped_of_step {s t : State} (h : step s = .next t) : s.run = .running ∧ Stepped s t := by
  have hr : s.run = .running := by
    cases hrun : s.run <;> simp [step, hrun] at h ⊢
  obtain ⟨t', h', ht⟩ := step_stepped hr
  rw [h] at h'
  injection h' with h'
  exact ⟨hr, h' ▸ ht⟩

end Sys2Proof.Machine
end

