-- ==== Sys2Proof/Laws/Run.lean ====
section
/-! SUPPORT. The run loop stays where it is in a terminal state, and the word that `State.withFetchWord` places is the
word the next step fetches. -/

namespace Sys2Proof.Machine

/-- In a terminal run state nothing changes (`40_engine_cycle.md` R89). -/
theorem runLoop_terminal {s : State} (h : s.run ≠ .running) (n : Nat) : runLoop n s = s := by
  cases n with
  | zero => rfl
  | succ n => cases hrun : s.run <;> simp [runLoop, step, hrun] at h ⊢

/-- One turn of the loop. -/
theorem runLoop_next {s t : State} (h : step s = .next t) (n : Nat) : runLoop (n + 1) s = runLoop n t := by
  simp [runLoop, h]

/-- The window after `withFetchWord` is the word's bytes, wherever three bytes
fit. -/
theorem fetchWindow_withFetchWord (s : State) (nbits w : Nat) (h : s.pc ≤ 253) :
    fetchWindow (s.withFetchWord nbits w) = wordBytes nbits w := by
  have hpc : (s.withFetchWord nbits w).pc = s.pc := rfl
  have hmem : (s.withFetchWord nbits w).mem = s.mem.storeBytes s.pc (wordBytes nbits w) := rfl
  have hlen : (wordBytes nbits w).length = 3 := by simp [wordBytes]
  apply List.ext_getElem?
  intro k
  rw [fetchWindow_getElem?, hpc, hmem]
  by_cases hk : k < 3
  · rw [if_pos (by omega), Memory.read_storeBytes _ _ _ _ (by omega), dif_pos (by omega)]
    simp [List.getElem?_eq_getElem (show k < (wordBytes nbits w).length by omega)]
  · rw [if_neg (by omega), List.getElem?_eq_none (by omega)]

/-- The step after `withFetchWord` runs the instruction that `decodeTableWord` reads. -/
theorem step_withFetchWord {s : State} {nbits w : Nat} {i : Instr} (h : s.pc ≤ 253)
    (hd : decodeTableWord nbits w = some i) :
    step (s.withFetchWord nbits w) = exec i (s.withFetchWord nbits w) := by
  refine step_of_fetch rfl ?_
  rw [fetchInstr, fetchWindow_withFetchWord s nbits w h]
  rw [decodeTableWord] at hd
  split at hd <;> simp_all

end Sys2Proof.Machine
end

