-- ==== Sys2Proof/Laws/Launch.lean ====
section
/-! SUPPORT. The host's ports: what a `load` event can change, when the port is closed, and that an image's load is one
store of its bytes. -/

namespace Sys2Proof.Machine

section Fields
variable (s : State) (a : Nat) (b : Byte)

/-! ### loadByte: memory and nothing else -/
@[simp] theorem State.loadByte_x : (s.loadByte a b).x = s.x := by unfold State.loadByte; split <;> rfl
@[simp] theorem State.loadByte_pc : (s.loadByte a b).pc = s.pc := by unfold State.loadByte; split <;> rfl
@[simp] theorem State.loadByte_run : (s.loadByte a b).run = s.run := by unfold State.loadByte; split <;> rfl
@[simp] theorem State.loadByte_err : (s.loadByte a b).err = s.err := by unfold State.loadByte; split <;> rfl
@[simp] theorem State.loadByte_out : (s.loadByte a b).out = s.out := by unfold State.loadByte; split <;> rfl

end Fields

/-- When the port takes an event (`10_state.md` R33). -/
theorem loadAccepted_iff (s : State) (a : Nat) : s.loadAccepted a ↔ s.run = .running ∧ s.pc = 0 ∧ a < 256 := by
  simp [State.loadAccepted, State.awaitsRun, and_assoc]

theorem loadByte_accepted {s : State} {a : Nat} (h : s.loadAccepted a) (b : Byte) :
    s.loadByte a b = { s with mem := s.mem.write a b } := by rw [State.loadByte, if_pos h]

theorem loadByte_rejected {s : State} {a : Nat} (h : ¬ s.loadAccepted a) (b : Byte) : s.loadByte a b = s := by
  rw [State.loadByte, if_neg h]

/-- A `load` event keeps the canonical form of memory. -/
theorem loadByte_wf {s : State} (h : s.mem.wf) (a : Nat) (b : Byte) : (s.loadByte a b).mem.wf := by
  by_cases ha : s.loadAccepted a
  · rw [loadByte_accepted ha]
    exact Memory.write_wf h ((loadAccepted_iff s a).mp ha).2.2 b
  · rwa [loadByte_rejected ha]

/-- Before the run, one `load` event per byte stores the bytes. -/
theorem loadFrom_eq {s : State} (h : s.awaitsRun) (a : Nat) (bs : List Byte) :
    s.loadFrom a bs = { s with mem := s.mem.storeBytes a bs } := by
  induction bs generalizing s a with
  | nil => rfl
  | cons b bs ih =>
    have hb : s.loadByte a b = { s with mem := if a < Config.memSize then s.mem.write a b else s.mem } := by
      by_cases ha : a < Config.memSize <;> simp [State.loadByte, State.loadAccepted, h, ha]
    rw [State.loadFrom, hb, ih (by simpa [State.awaitsRun] using h), Memory.storeBytes]

/-- The launch state's image load. -/
theorem reset_loadImage (img : Image) :
    State.reset.loadImage img = { State.reset with mem := Memory.storeBytes [] 0 img } :=
  loadFrom_eq (by decide) _ img

/-- A step leaves the load port closed: it ended the run, or moved the PC off the entry point. -/
theorem step_closes_load {s t : State} (h : step s = .next t) : t.run ≠ .running ∨ 1 ≤ t.pc := by
  obtain ⟨hr, hs⟩ := stepped_of_step h
  cases hs with
  | outside h => exact .inl (by simp)
  | unknown h hd => exact .inl (by simp)
  | truncated op h hd hl => exact .inl (by simp)
  | instr i t hl hd ho ht =>
    cases ht with
    | badRegister i b hi h => exact .inl (by simp)
    | hlt => exact .inl (by simp)
    | _ => exact .inr (by simp)

end Sys2Proof.Machine
end

