-- ==== Sys2Proof/Laws/PerInstr.lean ====
section
/-! SUPPORT. Facts stated of every instruction, one lemma per constructor. -/

/-! ### EncodeLength: an instruction's encoding has the length of its format, 1 to 3 bytes (`30_encoding.md` R60, R61) -/

namespace Sys2Proof.Laws.EncodeLength

/-- The encoding of `i` has the length its opcode fixes. -/
def Statement (i : Sys2Proof.Instr) : Prop :=
  (Sys2Proof.encode i).length = i.length ∧ 1 ≤ i.length ∧ i.length ≤ Sys2Proof.Config.maxInstrLength

/-- The format of each opcode counts its operand bytes. -/
theorem of_format (i : Sys2Proof.Instr) (h : i.operandBytes.length + 1 = i.opcode.format.length) : Statement i := by
  refine ⟨h, ?_, ?_⟩ <;> unfold Instr.length <;> cases i.opcode.format <;> decide

theorem hlt : Statement .hlt := of_format _ rfl
theorem ldi (reg imm : Byte) : Statement (.ldi reg imm) := of_format _ rfl
theorem prn (reg : Byte) : Statement (.prn reg) := of_format _ rfl
theorem mul (regA regB : Byte) : Statement (.mul regA regB) := of_format _ rfl
theorem pop (reg : Byte) : Statement (.pop reg) := of_format _ rfl
theorem push (reg : Byte) : Statement (.push reg) := of_format _ rfl

end Sys2Proof.Laws.EncodeLength
end

