-- ==== Sys2Proof/Tests/Slice0.lean ====
section
/-! SUPPORT. The model's own tests. Expected results come from the spec: the vectors of `95_test_vectors.md` are named
V-…, the programs P…, and other sources are cited. After them, a witness for every statement that has hypotheses. -/

namespace Sys2Proof.Tests

open Sys2Proof Sys2Proof.Machine

/-! ## Helpers -/

/-- The next state, if there is one. -/
def nextOf : Host.Outcome State Fault Refusal → Option State
  | .next t => some t
  | .fault _ => none
  | .refused _ => none

/-- The reset state with the PC moved and bytes placed there. -/
def stateAt (pc : Nat) (bs : List Byte) : State :=
  { State.reset with pc := pc, mem := Memory.storeBytes [] pc bs }

/-- A register set, and a cell set. -/
def setReg (s : State) (r : RegIndex) (v : Byte) : State := s.writeReg r v.toNat
def setCell (s : State) (a : Nat) (v : Byte) : State := { s with mem := s.mem.write a v }

/-- A field of the state one step later. -/
def after {α : Type} (s : State) (f : State → α) : Option α := (nextOf (step s)).map f

/-! ## WellFormed: an ill-formed term for each check, refused; register 7 and 256 bytes are the last that pass -/

theorem test_wf_ldi : (Instr.ldi 8 0).wellFormed = false ∧ (Instr.ldi 7 255).wellFormed = true := by decide
theorem test_wf_prn : (Instr.prn 8).wellFormed = false ∧ (Instr.prn 7).wellFormed = true := by decide
theorem test_wf_mul :
    (Instr.mul 8 0).wellFormed = false ∧ (Instr.mul 0 8).wellFormed = false ∧ (Instr.mul 7 7).wellFormed = true := by
  decide
theorem test_wf_pop : (Instr.pop 255).wellFormed = false ∧ (Instr.pop 0).wellFormed = true := by decide
theorem test_wf_push : (Instr.push 8).wellFormed = false ∧ (Instr.push 7).wellFormed = true := by decide
theorem test_wf_image :
    Image.wellFormed (List.replicate 257 0) = false ∧ Image.wellFormed (List.replicate 256 0) = true := by
  simp only [Image.wellFormed, List.length_replicate]; decide

/-! ## Decoding: each row's bytes written out bit by bit from R61 and R66 -/

theorem test_decode_hlt : decode [0b00000001, 0x47] = .instr .hlt [0x47] := by decide
theorem test_decode_ldi : decode [0b10000010, 0b00000101, 0b11110000] = .instr (.ldi 5 0xF0) [] := by decide
theorem test_decode_prn : decode [0b01000111, 0b00000100] = .instr (.prn 4) [] := by decide
theorem test_decode_mul : decode [0b10100010, 0b00000001, 0b00000111] = .instr (.mul 1 7) [] := by decide
theorem test_decode_pop : decode [0b01000110, 0b00000010] = .instr (.pop 2) [] := by decide
theorem test_decode_push : decode [0b01000101, 0b00001000] = .instr (.push 8) [] := by decide
/-- V-FLT-9, and 0x00, 0xA0, 0xA1 of V-FLT-1 to 3. -/
theorem test_decode_neighbours :
    ∀ b ∈ ([0x00, 0x02, 0x81, 0x83, 0x41, 0x44, 0x48, 0xA0, 0xA1, 0xA3] : List Byte),
      decode [b, 0, 0] = .unknownOpcode b := by decide
theorem test_decode_short : decode [0x82, 9] = .missing 2 ∧ decode [0x45] = .missing 1 ∧ decode [] = .missing 0 := by
  decide
theorem test_encode : encode (.ldi 0 8) = [0x82, 0x00, 0x08] ∧ encode (.mul 0 1) = [0xA2, 0x00, 0x01] := by decide

/-! ## HLT -/

/-- V-HLT-1. -/
theorem test_hlt : after (stateAt 5 [0x01]) (fun t => (t.run, t.pc)) = some (.halted, 5) := by decide
/-- V-HLT-2. -/
theorem test_hlt_at_255 : after (stateAt 255 [0x01]) (fun t => (t.run, t.pc)) = some (.halted, 255) := by decide

/-! ## LDI -/

/-- V-LDI-7: the last instruction that fits. -/
theorem test_ldi_at_253 : after (stateAt 253 [0x82, 1, 0x2A]) (fun t => (t.readReg 1, t.pc)) = some (0x2A, 256) := by
  decide
/-- V-LDI-8: the operand read outranks the bad index. -/
theorem test_ldi_at_254 :
    after (stateAt 254 [0x82, 9]) (fun t => (t.run, t.err, t.pc)) =
      some (.faulted, some ⟨.addressOutOfRange, 254, 256⟩, 254) := by decide

/-! ## PRN -/

/-- V-PRN-7 and V-PRN-2: appended at the end, unsigned. -/
theorem test_prn :
    after { setReg (stateAt 0 [0x47, 0]) 0 0xFF with out := [1, 2] } (fun t => (t.out, t.pc)) =
      some ([1, 2, 255], 2) := by decide
/-- V-PRN-5. -/
theorem test_prn_bad :
    after (stateAt 3 [0x47, 8]) (fun t => (t.err, t.out, t.pc)) =
      some (some ⟨.registerIndexOutOfRange, 3, 8⟩, [], 3) := by decide

/-! ## MUL -/

/-- V-MUL-6: 2 * 0xF4 = 488 wraps to 0xE8 in register 7, and the source stays. -/
theorem test_mul :
    after (setReg (stateAt 0 [0xA2, 7, 1]) 1 2) (fun t => (t.readReg 7, t.readReg 1, t.pc)) = some (0xE8, 2, 3) := by
  decide
/-- V-MUL-9: the first bad operand is reported. -/
theorem test_mul_bad :
    after (stateAt 0 [0xA2, 9, 0xC8]) (fun t => t.err) = some (some ⟨.registerIndexOutOfRange, 0, 9⟩) := by decide

/-! ## POP -/

/-- V-POP-3: the stack pointer wraps from 0xFF to 0x00. -/
theorem test_pop_wraps :
    after (setCell (setReg (stateAt 0 [0x46, 2]) 7 0xFF) 0xFF 0x9C) (fun t => (t.readReg 2, t.readReg 7, t.pc)) =
      some (0x9C, 0, 2) := by decide
/-- V-POP-4: `POP R7` loads, then increments. -/
theorem test_pop_r7 :
    after (setCell (setReg (stateAt 0 [0x46, 7]) 7 0xF3) 0xF3 0x20) (fun t => t.readReg 7) = some 0x21 := by decide

/-! ## PUSH -/

/-- V-PUSH-7: a PUSH that overwrites its own operand byte completes. -/
theorem test_push_over_itself :
    after (setReg (setReg (stateAt 6 [0x45, 0]) 7 8) 0 0x99) (fun t => (t.readReg 7, t.mem.read 7, t.pc)) =
      some (7, 0x99, 8) := by decide
/-- V-PUSH-4: `PUSH R7` stores the decremented stack pointer. -/
theorem test_push_r7 :
    after (stateAt 0 [0x45, 7]) (fun t => (t.readReg 7, t.mem.read 0xF3)) = some (0xF3, 0xF3) := by decide

/-! ## The ALU as a function of values: the examples of R112, R113, R114 -/

theorem test_alu_add :
    aluValue .add 200 100 = some 44 ∧ aluValue .add 255 1 = some 0 ∧ aluValue .add 255 255 = some 254 := by decide
theorem test_alu_sub :
    aluValue .sub 10 3 = some 7 ∧ aluValue .sub 5 10 = some 251 ∧ aluValue .sub 0 255 = some 1 := by decide
theorem test_alu_mul :
    aluValue .mul 255 255 = some 1 ∧ aluValue .mul 15 17 = some 255 ∧ aluValue .mul 3 100 = some 44 := by decide
theorem test_alu_other : aluValue .other 1 1 = none := by decide

/-! ## Faults, launch and the terminal states -/

/-- V-FLT-4: decode comes before any operand read. -/
theorem test_unknown_at_255 :
    after (stateAt 255 []) (fun t => t.err) = some (some ⟨.unknownOpcode, 255, 0⟩) := by decide
/-- V-FLT-5. -/
theorem test_fetch_at_256 :
    after (stateAt 256 []) (fun t => (t.err, errorCode t)) = some (some ⟨.addressOutOfRange, 256, 256⟩, 2) := by decide
/-- V-FLT-7. -/
theorem test_no_step_after_halt : nextOf (step { stateAt 0 [0x45, 0] with run := .halted }) = none := by decide
/-- V-RST-0 and R174: an image lies from address 0, and zeros follow. -/
theorem test_launch :
    (launch [0x82, 0x00, 0x08]).map (fun s => (s.mem.read 0, s.mem.read 2, s.mem.read 3, s.pc, s.readReg 7)) =
      some (0x82, 0x08, 0x00, 0, 0xF4) := by decide
/-- R23 of the port table: the value PRN shows. -/
theorem test_emitted : emittedBy State.reset { State.reset with out := [8] } = some 8 := by decide

/-! ## The host's fixed names: one word per row is the first instruction after reset -/

theorem test_fetch_word_ldi :
    step (State.reset.withFetchWord 24 0x080082) = exec (.ldi 0 8) (State.reset.withFetchWord 24 0x080082) := by rfl
theorem test_fetch_word_hlt :
    (nextOf (step (State.reset.withFetchWord 8 0x01))).map (fun t => t.run) = some .halted := by decide

/-! ## Text -/

/-- R76, the print8 image file. -/
theorem test_image_text :
    parseImage
      ("# print8\n10000010 # LDI R0,8\n00000000\n00001000\n01000111 # PRN R0\n00000000\n00000001 # HLT\n").toList =
      some [0x82, 0, 8, 0x47, 0, 1] := by decide
/-- D25: a line that is neither blank nor eight binary digits is no image line. -/
theorem test_image_text_malformed : parseImage ['1', '0'] = none := by decide
/-- R73. -/
theorem test_instr_text : instrText (.ldi 0 8) = some ("LDI R0,8").toList ∧ instrText (.push 8) = none := by decide
/-- R30: `dec(0)` is `0`, no leading zeros; V-PRN-2. -/
theorem test_sink : renderSink [0, 72, 255] = ("0\n72\n255\n").toList := by decide

/-! ## Witnesses: states and operands that meet the hypotheses of each statement, at the boundary values of its clauses -/

theorem witness_LaunchStateIsFixedByTheImage :
    (∃ s, launch (List.replicate 256 0x47) = some s) ∧ launch (List.replicate 257 0x47) = none := by
  simp only [launch, Image.wellFormed, List.length_replicate]
  exact ⟨⟨_, rfl⟩, rfl⟩

theorem witness_RegisterWriteStoresWrap8InOneCell :
    regIndex 7 = .ok 7 ∧ 8 ≤ (8 : Byte).toNat ∧ (1 : RegIndex) ∉ ([0] : List RegIndex) := by
  refine ⟨rfl, by decide, by decide⟩

theorem witness_MemoryPrimitivesCheckTheBoundAndTouchOneCell : 255 ≤ 255 ∧ 254 ≠ 255 ∧ 255 < 256 := by decide

theorem witness_AluWritesWrap8OfTheExactResult :
    (AluOp.mul = .add ∧ (6 : Int) = 2 + 3) ∨ (AluOp.mul = .sub ∧ (6 : Int) = 2 - 3) ∨
      (AluOp.mul = .mul ∧ (6 : Int) = 2 * 3) := by decide

theorem witness_AluAddLosesTheCarry :
    let s := setReg (setReg State.reset 0 255) 1 0
    let t := setReg (setReg State.reset 0 255) 1 1
    (s.readReg 0).toNat + (s.readReg 1).toNat ≤ 255 ∧ 255 < (t.readReg 0).toNat + (t.readReg 1).toNat := by decide

theorem witness_AluSubLosesTheBorrow :
    let s := setReg State.reset 0 1
    (s.readReg 0).toNat ≤ (s.readReg 0).toNat ∧ (s.readReg 1).toNat < (s.readReg 0).toNat := by decide

theorem witness_StepRunsTheDecodedInstruction :
    (stateAt 254 [0x45, 3]).run = .running ∧ decode (fetchWindow (stateAt 254 [0x45, 3])) = .instr (.push 3) [] := by
  decide

theorem witness_StepRunsTheEncodedInstruction :
    (stateAt 253 [0x82, 7, 5]).run = .running ∧
      ∀ k b, (encode (.ldi 7 5))[k]? = some b → 253 + k ≤ 255 ∧ (stateAt 253 [0x82, 7, 5]).mem.read (253 + k) = b := by
  refine ⟨rfl, fun k b h => ?_⟩
  rcases k with _ | _ | _ | k
  · obtain rfl : (0x82 : Byte) = b := Option.some.inj h
    decide
  · obtain rfl : (7 : Byte) = b := Option.some.inj h
    decide
  · obtain rfl : (5 : Byte) = b := Option.some.inj h
    decide
  · exact absurd h (by simp [encode, Instr.operandBytes])

theorem witness_StepIsTheReferencePseudocode : (stateAt 0 [0x45, 7]).run = .running := by decide

theorem witness_StepExistsExactlyWhenRunning :
    { State.reset with run := .halted }.run = .halted ∧ { State.reset with run := .faulted }.run = .faulted := ⟨rfl, rfl⟩

/-- A register operand at both ends of its range: the hypothesis of LdiCompletes, PrnCompletes, PopCompletes,
PushCompletes and SinkShowsOneLinePerPrn, and the two of MulCompletes. -/
theorem witness_valid_operands : (0 : Byte).toNat = (0 : RegIndex).val ∧ (7 : Byte).toNat = (7 : RegIndex).val := by decide

theorem witness_StackIsDescendingPreDecrementPostIncrement :
    (6 : Byte).toNat = (6 : RegIndex).val ∧ (6 : RegIndex) ≠ 7 := by decide

/-- The hypotheses of a statement about the step of a three-byte opcode: its three clauses at their boundaries. -/
theorem witness_LdiStepFollowsItsRule :
    (∀ pc ∈ [253, 254, 255], let s := stateAt pc [0x82, 7, 1]
      s.run = .running ∧ s.pc ≤ 255 ∧ s.mem.read s.pc = 0x82) ∧
    (stateAt 253 [0x82, 7, 1]).mem.read 254 = 7 ∧ (stateAt 253 [0x82, 8, 1]).mem.read 254 = 8 := by decide

theorem witness_MulStepFollowsItsRule :
    (∀ pc ∈ [253, 254, 255], let s := stateAt pc [0xA2, 7, 0]
      s.run = .running ∧ s.pc ≤ 255 ∧ s.mem.read s.pc = 0xA2) ∧
    (stateAt 253 [0xA2, 8, 0]).mem.read 254 = 8 ∧
    ((stateAt 253 [0xA2, 7, 8]).mem.read 254 = 7 ∧ (stateAt 253 [0xA2, 7, 8]).mem.read 255 = 8) ∧
    ((stateAt 253 [0xA2, 7, 0]).mem.read 254 = 7 ∧ (stateAt 253 [0xA2, 7, 0]).mem.read 255 = 0) := by decide

theorem witness_PrnStepFollowsItsRule :
    (∀ pc ∈ [254, 255], let s := stateAt pc [0x47, 7]
      s.run = .running ∧ s.pc ≤ 255 ∧ s.mem.read s.pc = 0x47) ∧
    (stateAt 254 [0x47, 7]).mem.read 255 = 7 ∧ (stateAt 254 [0x47, 8]).mem.read 255 = 8 := by decide

theorem witness_PopStepFollowsItsRule :
    (∀ pc ∈ [254, 255], let s := stateAt pc [0x46, 7]
      s.run = .running ∧ s.pc ≤ 255 ∧ s.mem.read s.pc = 0x46) ∧
    (stateAt 254 [0x46, 7]).mem.read 255 = 7 ∧ (stateAt 254 [0x46, 8]).mem.read 255 = 8 := by decide

theorem witness_PushStepFollowsItsRule :
    (∀ pc ∈ [254, 255], let s := stateAt pc [0x45, 7]
      s.run = .running ∧ s.pc ≤ 255 ∧ s.mem.read s.pc = 0x45) ∧
    (stateAt 254 [0x45, 7]).mem.read 255 = 7 ∧ (stateAt 254 [0x45, 8]).mem.read 255 = 8 := by decide

theorem witness_RegisterOperandAboveSevenRaises : 8 ≤ (8 : Byte).toNat ∧ (7 : Byte).toNat ≤ 7 := by decide

theorem witness_UnknownOpcodeRaises :
    let s := stateAt 255 [0xA0]
    s.run = .running ∧ s.pc ≤ 255 ∧ s.mem.read s.pc ∉ ([0x01, 0x45, 0x46, 0x47, 0x82, 0xA2] : List Byte) := by decide

theorem witness_FetchPastTheEndRaises : (stateAt 256 []).run = .running ∧ 255 < (stateAt 256 []).pc := by decide

/-- A step that ends FAULTED with a record: FaultingStepChangesOnlyRunAndError, FaultConditionsAreTheTable,
UnsupportedOperationIsUnreachable and OutputLogIsThePrnValuesInOrder. -/
theorem witness_faulting_step :
    ∃ t e, step (stateAt 255 [0x45]) = .next t ∧ t.run = .faulted ∧ t.err = some e ∧ e.kind = .addressOutOfRange :=
  ⟨_, _, rfl, rfl, rfl, rfl⟩

/-- A step that ends HALTED and one that stays RUNNING: HaltedOnlyThroughHlt, PcMovesByTheInstructionLength,
OnlyPrnEmits. -/
theorem witness_next_steps :
    (∃ t, step (stateAt 0 [0x01]) = .next t ∧ t.run ≠ .running) ∧
      ∃ t, step (stateAt 0 [0x47, 0]) = .next t ∧ t.run = .running := by
  refine ⟨⟨_, rfl, by decide⟩, ⟨_, rfl, by decide⟩⟩

theorem witness_OnlyPushWritesMemory :
    ∃ t, step (stateAt 0 [0x45, 7]) = .next t ∧ t.mem.read 0xF3 ≠ (stateAt 0 [0x45, 7]).mem.read 0xF3 :=
  ⟨_, rfl, by decide⟩

/-- Each line of the register table: LDI's register, POP's register and POP's register 7, PUSH's register 7. -/
theorem witness_RegistersChangeOnlyAsTabulated :
    (∃ t, step (stateAt 0 [0x82, 6, 1]) = .next t ∧ t.readReg 6 ≠ (stateAt 0 [0x82, 6, 1]).readReg 6) ∧
    (∃ t, step (setCell (stateAt 0 [0x46, 6]) 0xF4 9) = .next t ∧
      t.readReg 6 ≠ (setCell (stateAt 0 [0x46, 6]) 0xF4 9).readReg 6 ∧
      t.readReg 7 ≠ (setCell (stateAt 0 [0x46, 6]) 0xF4 9).readReg 7) ∧
    ∃ t, step (stateAt 0 [0x45, 6]) = .next t ∧ t.readReg 7 ≠ (stateAt 0 [0x45, 6]).readReg 7 := by
  refine ⟨⟨_, rfl, by decide⟩, ⟨_, rfl, by decide, by decide⟩, ⟨_, rfl, by decide⟩⟩

/-- V-PUSH-8, and the wrapped stack pointer at the top: the pushed byte is HLT. -/
theorem witness_StoreIsSeenByTheNextFetch :
    ∀ p ∈ ([(6, 9), (253, 0)] : List (Nat × Byte)), let s := setReg (setReg (stateAt p.1 [0x45, 0]) 0 1) 7 p.2
      s.run = .running ∧ s.pc ≤ 253 ∧ s.mem.read s.pc = 0x45 ∧ (s.mem.read (s.pc + 1)).toNat = (0 : RegIndex).val ∧
        stackAddress s.decrementSp = s.pc + 2 ∧ after s (fun t => t.readReg 0) = some 0x01 := by decide

/-- R33: the load port takes its first and last address before the run, and nothing at address 256. -/
theorem test_load_before_the_run :
    ((State.reset.loadByte 0 7).mem.read 0, (State.reset.loadByte 255 7).mem.read 255) = (7, 7) ∧
      State.reset.loadByte 256 7 = State.reset := by decide

/-- R33: the load port is closed after the first step and after the run; LoadPortIsOpenOnlyBeforeTheRun. -/
theorem test_load_is_closed_after_a_step :
    (∃ t, step (stateAt 0 [0x47, 0]) = .next t ∧ t.loadByte 0 7 = t) ∧
      ∃ t, step (stateAt 0 [0x01]) = .next t ∧ t.loadByte 0 7 = t := ⟨⟨_, rfl, rfl⟩, _, rfl, rfl⟩

/-- R33: the window open and closed in each way; LoadPortIsOpenOnlyBeforeTheRun. -/
theorem witness_LoadPortIsOpenOnlyBeforeTheRun :
    (State.reset.run = .running ∧ State.reset.pc = 0) ∧ (stateAt 0 [0x01]).halt.run ≠ .running ∧ (stateAt 2 []).pc ≠ 0 := by
  decide

/-- Images at both ends of the range; LaunchIsResetThenLoads. -/
theorem witness_LaunchIsResetThenLoads :
    ([] : Image).length ≤ 256 ∧ (List.replicate 256 0x47 : Image).length ≤ 256 := by
  simp only [List.length_replicate]; decide

/-- R33: no read-back while RUNNING, a read-back of a HALTED state; RunEventEndsTheRunAndOpensTheReadBack. -/
theorem witness_RunEventEndsTheRunAndOpensTheReadBack :
    (stateAt 0 [0x01]).run = .running ∧ (stateAt 0 [0x01]).readBack = none ∧
      ∃ t, step (stateAt 0 [0x01]) = .next t ∧ t.run ≠ .running ∧ t.readBack.map ReadBack.pc = some 0 := by
  refine ⟨by decide, by decide, _, rfl, by decide, by decide⟩

/-- A launch: LaunchMeetsTheInvariant and EveryLaunchEndsHaltedOrExplained. -/
theorem witness_launch : ∃ s, launch [0x82, 0, 8, 0x47, 0, 1] = some s := ⟨_, rfl⟩

theorem witness_EveryStepKeepsTheInvariant :
    (stateAt 254 [0x45, 7]).Inv ∧ ∃ t, step (stateAt 254 [0x45, 7]) = .next t :=
  ⟨⟨Memory.storeBytes_wf Memory.wf_nil _ _, by decide, by decide, fun _ h => (by cases h), fun h => (by cases h)⟩, _, rfl⟩

theorem witness_PushThenPopRoundTrips : (6 : Byte).toNat = (6 : RegIndex).val ∧ (6 : RegIndex) ≠ 7 := by decide

theorem witness_PushThenPopBalancesTheStack :
    (7 : Byte).toNat = (7 : RegIndex).val ∧ (6 : Byte).toNat = (6 : RegIndex).val ∧ (6 : RegIndex) ≠ 7 := by decide

theorem witness_StackIsLastInFirstOut :
    (0 : Byte).toNat = (0 : RegIndex).val ∧ (1 : Byte).toNat = (1 : RegIndex).val ∧ (0 : RegIndex) ≠ 7 ∧
      (1 : RegIndex) ≠ 7 ∧ (0 : RegIndex) ≠ 1 := by decide

theorem witness_PushesStayBelowTheStackPointer :
    let s := setReg State.reset 7 2
    (∀ b ∈ ([0, 7] : List Byte), b.toNat ≤ 7) ∧ ([0, 7] : List Byte).length ≤ (s.readReg 7).toNat := by decide

end Sys2Proof.Tests
end

/-! PROOFS of the family `00_scope.md`: `wrap8` (R8). -/
section

namespace Sys2Proof.Machine

/-- `wrap8` read as an equation of integers: `wrap8 v` is the one byte whose value is `v % 256`. -/
theorem wrap8_eq_iff_toNat_eq_emod (v : Int) (r : Byte) : wrap8 v = r ↔ (r.toNat : Int) = v % 256 := by
  rw [← wrap8_toNat, Int.natCast_inj, BitVec.toNat_inj, eq_comm]

/-- Settles O3: a byte is its own residue, so it equals `v % 256` exactly when it is congruent to `v`. -/
theorem wrap8IsTheResidueModulo256 : Obligations.Wrap8IsTheResidueModulo256 := by
  intro v r
  have residue_of_byte : (r.toNat : Int) % 256 = r.toNat := by
    have := r.isLt
    omega
  calc wrap8 v = r
    _ ↔ (r.toNat : Int) % 256 = v % 256 := by rw [wrap8_eq_iff_toNat_eq_emod, residue_of_byte]
    _ ↔ (256 : Int) ∣ (r.toNat : Int) - v := eq_comm.trans Int.modEq_iff_dvd

end Sys2Proof.Machine
end

/-! PROOFS of the family `10_state.md`: the registers and the sink (R22, R30), the state after reset (R35), what one step
can change (R23 to R30), the invariant (R36), and the host's ports (R33). -/
section

namespace Sys2Proof.Machine

/-! ### registers and register operands (R22) -/

/-- A register that reads differently after a register write is the one written. -/
theorem eq_of_readReg_writeReg_ne {s : State} {i j : RegIndex} {v : Int}
    (h : (s.writeReg i v).readReg j ≠ s.readReg j) : j = i :=
  not_imp_comm.mp (State.readReg_writeReg_ne s v) h

/-- The operand bytes that pass validation as register `r`. -/
theorem regIndex_eq_ok_iff (b : Byte) (r : RegIndex) : regIndex b = .ok r ↔ b.toNat = r.val := by
  rcases register_operand_cases b with ⟨q, hq⟩ | hb
  · rw [regIndex_of_eq hq, Except.ok.injEq, Fin.ext_iff, hq]
  · have := r.isLt
    rw [regIndex_of_ge hb]
    exact ⟨nofun, fun h => by omega⟩

/-- Settles O4: the register rules say what is read back, and a write is by definition an update of `x` alone. -/
theorem registerWriteStoresWrap8InOneCell : Obligations.RegisterWriteStoresWrap8InOneCell := by
  refine ⟨fun s i v => ⟨?_, ?_, _, rfl⟩, fun b => ⟨regIndex_eq_ok_iff b, fun h => ⟨_, regIndex_of_ge h, rfl⟩⟩⟩
  · rw [State.readReg_writeReg_self, wrap8_toNat]
  · exact fun j hj => State.readReg_writeReg_ne s v (List.mem_singleton.not.mp hj)

/-! ### the sink (R30) -/

/-- The sink's text grows at its end as the log does. -/
theorem renderSink_append (vs ws : List Byte) : renderSink (vs ++ ws) = renderSink vs ++ renderSink ws := by
  induction vs with
  | nil => rfl
  | cons v vs ih => simp [renderSink, ih]

/-- Settles O53: PRN appends one value to the log, and one value renders as one line. -/
theorem sinkShowsOneLinePerPrn : Obligations.SinkShowsOneLinePerPrn := by
  intro s reg r hreg
  refine ⟨_, exec_prn hreg, ?_⟩
  rw [State.advance_out, State.emit_out, renderSink_append, List.append_assoc]
  rfl

/-! ### reset (R35) -/

theorem State.readReg_reset (i : RegIndex) : State.reset.readReg i = if i = 7 then 0xF4 else 0x00 := by
  decide +revert

/-- Settles O1: the reset state is a literal; its register file is read at register 7 and at the others. -/
theorem resetLeavesTheTabulatedValues : Obligations.ResetLeavesTheTabulatedValues :=
  ⟨State.readReg_reset 7, fun i hi => (State.readReg_reset i).trans (if_neg hi), rfl, Memory.read_nil, rfl, rfl, rfl⟩

/-! ### what one step leaves, by the bytes at the PC -/

/-- HLT has no operand that could be missing or bad, so its handler is told from the others by its byte alone. -/
theorem opcode_byte_eq_hlt_iff (op : Opcode) : op.byte = 0x01 ↔ op = .hlt := by
  cases op <;> decide

/-- An instruction with a register operand is not HLT. -/
theorem opcode_ne_hlt_of_mem_registerOperands {i : Instr} {b : Byte} (h : b ∈ i.registerOperands) :
    i.opcode ≠ .hlt := by
  intro hi
  cases i with
  | hlt => exact List.not_mem_nil h
  | _ => cases hi

/-- Everything a step can leave, by the bytes at the PC: `Stepped` and `Executed` in one, with all faults in one case. -/
inductive StepEffect (s : State) : State → Prop where
  /-- a fatal error, which the record explains and HLT never raises -/
  | raised (e : Raised) (hop : s.pc ≤ 255 → s.mem.read s.pc ≠ 0x01)
      (hex : s.pc ≤ 256 → (s.raise e).ErrorExplained ⟨e.kind, s.pc, e.info⟩) : StepEffect s (s.raise e)
  | hlt (hpc : s.pc ≤ 255) (hop : s.mem.read s.pc = 0x01) : StepEffect s s.halt
  | ldi (r : RegIndex) (imm : Byte) (hpc : s.pc + 3 ≤ 256) (hop : s.mem.read s.pc = 0x82)
      (hr : (s.mem.read (s.pc + 1)).toNat = r.val) (himm : s.mem.read (s.pc + 2) = imm) :
      StepEffect s ((s.writeReg r imm.toNat).advance 3)
  | prn (r : RegIndex) (hpc : s.pc + 2 ≤ 256) (hop : s.mem.read s.pc = 0x47)
      (hr : (s.mem.read (s.pc + 1)).toNat = r.val) : StepEffect s ((s.emit (s.readReg r)).advance 2)
  | mul (r q : RegIndex) (hpc : s.pc + 3 ≤ 256) (hop : s.mem.read s.pc = 0xA2)
      (hr : (s.mem.read (s.pc + 1)).toNat = r.val) (hq : (s.mem.read (s.pc + 2)).toNat = q.val) :
      StepEffect s ((s.writeReg r ((s.readReg r).toNat * (s.readReg q).toNat : Int)).advance 3)
  | pop (r : RegIndex) (hpc : s.pc + 2 ≤ 256) (hop : s.mem.read s.pc = 0x46)
      (hr : (s.mem.read (s.pc + 1)).toNat = r.val) :
      StepEffect s ((s.writeReg r (s.mem.read (stackAddress s)).toNat).incrementSp.advance 2)
  | push (r : RegIndex) (hpc : s.pc + 2 ≤ 256) (hop : s.mem.read s.pc = 0x45)
      (hr : (s.mem.read (s.pc + 1)).toNat = r.val) : StepEffect s (pushed s r)

/-- A fetched instruction's handler leaves one of the effects: operand byte `k` is the one at `pc + 1 + k`. -/
theorem stepEffect_of_executed {s t : State} {i : Instr} (hl : s.pc + i.length ≤ 256)
    (hd : s.mem.read s.pc = i.opcode.byte) (ho : ∀ k b, i.operandBytes[k]? = some b → s.mem.read (s.pc + 1 + k) = b)
    (ht : Executed s i t) : StepEffect s t := by
  have operand (k : Nat) {b : Byte} {r : RegIndex} (hb : i.operandBytes[k]? = some b) (hr : b.toNat = r.val) :
      (s.mem.read (s.pc + 1 + k)).toNat = r.val := ho k b hb ▸ hr
  cases ht with
  | hlt => exact .hlt (Nat.le_of_succ_le_succ hl) hd
  | ldi b imm r h => exact .ldi r imm hl hd (operand 0 rfl h) (ho 1 imm rfl)
  | prn b r h => exact .prn r hl hd (operand 0 rfl h)
  | mul b c r q hb hc => exact .mul r q hl hd (operand 0 rfl hb) (operand 1 rfl hc)
  | pop b r h => exact .pop r hl hd (operand 0 rfl h)
  | push b r h => exact .push r hl hd (operand 0 rfl h)
  | badRegister i b hi h =>
    refine .raised _ (fun _ hop => ?_) fun _ => ⟨rfl, h, Nat.le_of_lt_succ b.isLt⟩
    exact opcode_ne_hlt_of_mem_registerOperands hi ((opcode_byte_eq_hlt_iff _).mp (hd ▸ hop))

/-- The inversion lemma of the step that the rules about a whole step go through. -/
theorem stepEffect_of_step {s t : State} (h : step s = .next t) : s.run = .running ∧ StepEffect s t := by
  obtain ⟨hrun, hs⟩ := stepped_of_step h
  refine ⟨hrun, ?_⟩
  cases hs with
  | outside hpc => exact .raised _ (fun _ => by omega) fun hle => ⟨rfl, Nat.le_antisymm hle hpc, by simp; omega⟩
  | unknown hpc hd => exact .raised _ (fun _ => ((dispatch_eq_none_iff _).mp hd).1) fun _ => ⟨rfl, hpc, rfl, hd⟩
  | truncated op hpc hd hl =>
    have hlen : op.format.length ≤ 3 := by cases op <;> decide
    refine .raised _ (fun _ hop => ?_) fun _ => ⟨rfl, rfl, by simp; omega⟩
    obtain rfl := (opcode_byte_eq_hlt_iff op).mp (hd ▸ hop)
    exact absurd hpc (Nat.not_le_of_gt (Nat.lt_of_succ_lt_succ hl))
  | instr i t hl hd ho ht => exact stepEffect_of_executed hl hd ho ht

/-! ### what a step changes (R23 to R30) -/

/-- Settles O37: the only effect that ends HALTED is HLT's, and the others have another byte at the PC. -/
theorem haltedOnlyThroughHlt : Obligations.HaltedOnlyThroughHlt := by
  intro s t h
  obtain ⟨hrun, heff⟩ := stepEffect_of_step h
  have not_halted {u : State} {b : Byte} (hu : u.run = s.run) (hop : s.mem.read s.pc = b) (hb : b ≠ 0x01) :
      u.run = .halted ↔ s.pc ≤ 255 ∧ s.mem.read s.pc = 0x01 := by
    rw [hu, hrun, hop]
    exact ⟨nofun, fun ⟨_, h⟩ => absurd h hb⟩
  cases heff with
  | raised e hop _ => exact ⟨nofun, fun ⟨hpc, h⟩ => absurd h (hop hpc)⟩
  | hlt hpc hop => exact ⟨fun _ => ⟨hpc, hop⟩, fun _ => rfl⟩
  | ldi _ _ _ hop _ _ | prn _ _ hop _ | mul _ _ _ hop _ _ | pop _ _ hop _ | push _ _ hop _ =>
    exact not_halted rfl hop (by decide)

/-- Settles O38: a completed instruction other than HLT keeps RUNNING and advances by its length; a fault and HLT end the
run and leave the PC. -/
theorem pcMovesByTheInstructionLength : Obligations.PcMovesByTheInstructionLength := by
  intro s t h
  obtain ⟨hrun, heff⟩ := stepEffect_of_step h
  cases heff with
  | raised _ _ _ | hlt _ _ => exact ⟨nofun, fun _ => rfl⟩
  | ldi _ _ hpc hop _ _ | mul _ _ hpc hop _ _ =>
    exact ⟨fun _ => .inr ⟨by simp [hop], rfl, hpc⟩, fun h => absurd hrun h⟩
  | prn _ hpc hop _ | pop _ hpc hop _ | push _ hpc hop _ =>
    exact ⟨fun _ => .inl ⟨by simp [hop], rfl, hpc⟩, fun h => absurd hrun h⟩

/-- Settles O39: every effect but PUSH's leaves memory, and PUSH's writes one cell. -/
theorem onlyPushWritesMemory : Obligations.OnlyPushWritesMemory := by
  intro s t a h hne
  obtain ⟨-, heff⟩ := stepEffect_of_step h
  cases heff with
  | push r _ hop _ =>
    have ha : a = stackAddress s.decrementSp := not_imp_comm.mp (Memory.read_write_ne s.mem _) hne
    exact ⟨hop, ha, by simp [State.readReg_decrementSp]⟩
  | _ => exact absurd rfl hne

/-- Settles O40: every effect but PRN's leaves the log, and PRN's appends the register its operand names. -/
theorem onlyPrnEmits : Obligations.OnlyPrnEmits := by
  intro s t h
  obtain ⟨-, heff⟩ := stepEffect_of_step h
  cases heff with
  | prn r _ hop hr => exact .inr ⟨hop, r, hr, rfl⟩
  | _ => exact .inl rfl

/-- Settles O41: LDI and MUL write one register, PUSH moves register 7, and POP does both. -/
theorem registersChangeOnlyAsTabulated : Obligations.RegistersChangeOnlyAsTabulated := by
  intro s t j h hne
  obtain ⟨-, heff⟩ := stepEffect_of_step h
  cases heff with
  | raised _ _ _ | hlt _ _ | prn _ _ _ _ => exact absurd rfl hne
  | ldi _ _ _ hop hr _ | mul _ _ _ hop hr _ =>
    obtain rfl := eq_of_readReg_writeReg_ne hne
    exact .inl ⟨by simp [hop], hr⟩
  | pop r _ hop hr =>
    by_cases hj : j = 7
    · exact .inr (.inl ⟨hop, .inr hj⟩)
    · rw [State.readReg_advance, State.readReg_incrementSp, if_neg hj] at hne
      obtain rfl := eq_of_readReg_writeReg_ne hne
      exact .inr (.inl ⟨hop, .inl hr⟩)
  | push r _ hop _ => exact .inr (.inr ⟨hop, eq_of_readReg_writeReg_ne hne⟩)

/-! ### the invariant (R36) -/

/-- In a RUNNING state without an error record the invariant is about memory and the PC only. -/
theorem State.inv_of_running {s : State} (hmem : s.mem.wf) (hpc : s.pc ≤ 256) (hrun : s.run = .running)
    (herr : s.err = none) : s.Inv where
  mem_wf := hmem
  pc_le := hpc
  err_iff := by simp [hrun, herr]
  err_explained := by simp [herr]
  halted_at_hlt := by simp [hrun]

/-- A RUNNING state of the invariant has no error record. -/
theorem State.Inv.err_eq_none {s : State} (hi : s.Inv) (hrun : s.run = .running) : s.err = none :=
  hi.err_iff.mpr (by simp [hrun])

/-- Raising an error that explains itself keeps the invariant. -/
theorem State.Inv.raise {s : State} (hi : s.Inv) {e : Raised}
    (hex : (s.raise e).ErrorExplained ⟨e.kind, s.pc, e.info⟩) : (s.raise e).Inv where
  mem_wf := hi.mem_wf
  pc_le := hi.pc_le
  err_iff := by simp
  err_explained := fun _ he => Option.some.inj he ▸ hex
  halted_at_hlt := by simp

/-- Halting on an HLT keeps the invariant. -/
theorem State.Inv.halt {s : State} (hi : s.Inv) (hrun : s.run = .running) (hpc : s.pc ≤ 255)
    (hop : s.mem.read s.pc = 0x01) : s.halt.Inv where
  mem_wf := hi.mem_wf
  pc_le := hi.pc_le
  err_iff := by simp [hi.err_eq_none hrun]
  err_explained := hi.err_explained
  halted_at_hlt := fun _ => ⟨hpc, hop⟩

/-- Settles O45: reset leaves RUNNING, empty memory, PC 0 and no error record. -/
theorem resetMeetsTheInvariant : Obligations.ResetMeetsTheInvariant :=
  State.inv_of_running Memory.wf_nil (Nat.zero_le _) rfl rfl

/-- Settles O47, by cases on what the step leaves: only a fault sets the error record, only HLT halts, only PUSH writes
memory (one cell, in range), and a completed instruction ended at most at 256. -/
theorem everyStepKeepsTheInvariant : Obligations.EveryStepKeepsTheInvariant := by
  intro s t hi h
  obtain ⟨hrun, heff⟩ := stepEffect_of_step h
  have herr := hi.err_eq_none hrun
  cases heff with
  | raised e _ hex => exact hi.raise (hex hi.pc_le)
  | hlt hpc hop => exact hi.halt hrun hpc hop
  | ldi _ _ hpc _ _ _ | prn _ hpc _ _ | mul _ _ hpc _ _ _ | pop _ hpc _ _ =>
    exact State.inv_of_running hi.mem_wf hpc hrun herr
  | push _ hpc _ _ => exact State.inv_of_running (Memory.write_wf hi.mem_wf (stackAddress_lt _) _) hpc hrun herr

/-! ### runs -/

/-- What every step keeps holds along a run. -/
theorem runLoop_keeps (P : State → Prop) (hstep : ∀ s t, P s → step s = .next t → P t) {s : State} (h : P s) (n : Nat) :
    P (runLoop n s) := by
  induction n generalizing s with
  | zero => exact h
  | succ n ih =>
    by_cases hrun : s.run = .running
    · obtain ⟨t, hst, -⟩ := step_stepped hrun
      exact runLoop_next hst n ▸ ih (hstep s t h hst)
    · exact (runLoop_terminal hrun (n + 1)).symm ▸ h

/-- A step that stays RUNNING moves the PC forward by at least 2, to at most 256. -/
theorem step_pc_of_running {s t : State} (h : step s = .next t) (ht : t.run = .running) :
    s.pc + 2 ≤ t.pc ∧ t.pc ≤ 256 := by
  rcases (pcMovesByTheInstructionLength s t h).1 ht with ⟨-, hpc, hle⟩ | ⟨-, hpc, hle⟩ <;> omega

/-- A run ends one step after the steps of 2 that the PC has left to 256. -/
theorem runLoop_succ_terminal {s : State} {n : Nat} (h : 256 ≤ s.pc + 2 * n) : (runLoop (n + 1) s).terminal := by
  by_cases hrun : s.run = .running
  · obtain ⟨t, hst, -⟩ := step_stepped hrun
    rw [runLoop_next hst]
    by_cases ht : t.run = .running
    · obtain ⟨hpc, hle⟩ := step_pc_of_running hst ht
      cases n with
      | zero => omega
      | succ n => exact runLoop_succ_terminal (by omega)
    · exact (runLoop_terminal ht n).symm ▸ ht
  · exact (runLoop_terminal hrun (n + 1)).symm ▸ hrun

/-- `70_reset_and_hazards.md` R180: from any state the step bound is enough. -/
theorem runToEnd_terminal (s : State) : (runToEnd s).terminal :=
  runLoop_succ_terminal (show 256 ≤ s.pc + 2 * 128 by omega)

/-! ### the host's ports (R33) -/

/-- When the load port refuses an event. -/
theorem not_loadAccepted_iff (s : State) (a : Nat) :
    ¬ s.loadAccepted a ↔ s.run ≠ .running ∨ s.pc ≠ 0 ∨ 255 < a := by
  rw [loadAccepted_iff, not_and_or, not_and_or, Nat.not_lt, Nat.succ_le_iff]

/-- Once a step has been performed, the run is over or its PC is past the entry point, at every later point. -/
theorem runLoop_after_step {s t : State} (h : step s = .next t) (n : Nat) :
    (runLoop n t).run ≠ .running ∨ 1 ≤ (runLoop n t).pc :=
  runLoop_keeps (fun u => u.run ≠ .running ∨ 1 ≤ u.pc) (fun _ _ _ hu => step_closes_load hu) (step_closes_load h) n

/-- Settles O55: the port's window is RUNNING at PC 0, and no point of a run after a step is in it. -/
theorem loadPortIsOpenOnlyBeforeTheRun : Obligations.LoadPortIsOpenOnlyBeforeTheRun := by
  intro s a b
  refine ⟨fun hrun hpc ha => ?_, fun h => loadByte_rejected ((not_loadAccepted_iff s a).mpr h) b, fun t n hst => ?_⟩
  · have hacc : s.loadAccepted a := (loadAccepted_iff s a).mpr ⟨hrun, hpc, Nat.lt_succ_of_le ha⟩
    exact ⟨_, loadByte_accepted hacc b, by simp [Memory.read_write], fun c hc => Memory.read_write_ne s.mem b hc⟩
  · refine loadByte_rejected ((not_loadAccepted_iff _ a).mpr ?_) b
    exact (runLoop_after_step hst n).imp_right fun hpc => .inl (Nat.ne_of_gt hpc)

/-- In a terminal run state the read-back is open. -/
theorem readBack_of_terminal {s : State} (h : s.terminal) : s.readBack = some ⟨s.x, s.pc, s.mem, s.out⟩ := by
  cases hrun : s.run with
  | running => exact absurd hrun h
  | halted => simp [State.readBack, hrun]
  | faulted => simp [State.readBack, hrun]

/-- Settles O57: the step bound ends every run, and in a terminal state both the run loop and the load port stand still. -/
theorem runEventEndsTheRunAndOpensTheReadBack : Obligations.RunEventEndsTheRunAndOpensTheReadBack := by
  refine ⟨fun s hrun => by simp [State.readBack, hrun], runToEnd_terminal, fun t ht => ?_⟩
  exact ⟨readBack_of_terminal ht, runLoop_terminal ht _,
    fun a b => loadByte_rejected ((not_loadAccepted_iff t a).mpr (.inl ht)) b, rfl⟩

end Sys2Proof.Machine
end

/-! PROOFS of the family `20_memory.md`: the access primitives (R41, R42), the byte order of a fetch (R43), and stores
over instructions (R52). -/
section

namespace Sys2Proof.Machine

/-! ### the access primitives (R41, R42) -/

/-- The cell that was written reads back what was stored. -/
theorem memRead_write_self (s : State) {a : Nat} (v : Byte) (h : a < 256) :
    memRead { s with mem := s.mem.write a v } a = .ok v := by
  rw [memRead_of_lt h, Memory.read_write, if_pos rfl]

/-- Every other address answers as before, out-of-range ones included. -/
theorem memRead_write_ne (s : State) {a b : Nat} (v : Byte) (h : b ≠ a) :
    memRead { s with mem := s.mem.write a v } b = memRead s b := by
  rw [memRead, memRead, Memory.read_write_ne s.mem v h]

/-- Settles O5: below 256 both primitives succeed, and the memory that MemWrite leaves is the written one. -/
theorem memoryPrimitivesCheckTheBoundAndTouchOneCell : Obligations.MemoryPrimitivesCheckTheBoundAndTouchOneCell := by
  refine fun s a v => ⟨fun ha => ?_, fun ha => ⟨memRead_of_ge ha, memWrite_of_ge ha⟩⟩
  have hlt : a < 256 := Nat.lt_succ_of_le ha
  exact ⟨memRead_of_lt hlt, _, memWrite_of_lt hlt, memRead_write_self s v hlt, fun b hb => memRead_write_ne s v hb⟩

/-! ### fetching an encoding (R43) -/

/-- Bytes that begin with an encoding decode to its instruction. -/
theorem decode_encode_append (i : Instr) (rest : List Byte) : decode (encode i ++ rest) = .instr i rest := by
  rw [encode, List.cons_append, decode_cons_byte]
  cases i <;> rfl

theorem encode_length_le (i : Instr) : (encode i).length ≤ 3 := by
  cases i <;> simp [encode, Instr.operandBytes]

/-- An encoding that stands in memory at the PC is what the fetch window begins with. -/
theorem encode_prefix_fetchWindow {s : State} {i : Instr}
    (h : ∀ k b, (encode i)[k]? = some b → s.pc + k ≤ 255 ∧ s.mem.read (s.pc + k) = b) :
    encode i <+: fetchWindow s := by
  refine List.prefix_iff_getElem?.mpr fun k hk => ?_
  obtain ⟨hpc, hread⟩ := h k _ (List.getElem?_eq_getElem hk)
  rw [fetchWindow_getElem?, if_pos ⟨hk.trans_le (encode_length_le i), Nat.lt_succ_of_le hpc⟩, hread]

/-- A RUNNING step runs the instruction whose encoding its window begins with. -/
theorem step_of_encode_prefix {s : State} {i : Instr} (hrun : s.run = .running) (h : encode i <+: fetchWindow s) :
    step s = exec i s := by
  obtain ⟨rest, hwin⟩ := h
  refine step_of_fetch hrun ?_
  rw [fetchInstr, ← hwin, decode_encode_append]

/-- Settles O16: the encoding at the PC heads the fetch window, and a window is run by what it begins with. -/
theorem stepRunsTheEncodedInstruction : Obligations.StepRunsTheEncodedInstruction :=
  fun _ _ hrun h => step_of_encode_prefix hrun (encode_prefix_fetchWindow h)

/-! ### stores over instructions (R52) -/

/-- A PUSH of a valid register at the PC is performed by the step. -/
theorem step_push {s : State} {r : RegIndex} (hrun : s.run = .running) (hpc : s.pc ≤ 253)
    (hop : s.mem.read s.pc = 0x45) (hr : (s.mem.read (s.pc + 1)).toNat = r.val) : step s = .next (pushed s r) := by
  have hwin : encode (.push (s.mem.read (s.pc + 1))) <+: fetchWindow s :=
    ⟨[s.mem.read (s.pc + 2)], by rw [fetchWindow_inside hpc, hop]; rfl⟩
  rw [step_of_encode_prefix hrun hwin, exec_push hr]

/-- An HLT byte at the head of the window halts. -/
theorem step_hlt {s : State} (hrun : s.run = .running) (hhead : (fetchWindow s).head? = some 0x01) :
    step s = .next s.halt := by
  obtain ⟨rest, hwin⟩ := List.head?_eq_some_iff.mp hhead
  exact step_of_encode_prefix (i := .hlt) hrun ⟨rest, hwin.symm⟩

/-- A PUSH stores its register, as it is after the decrement, in the cell at its stack address (R130). -/
theorem read_pushed_stackAddress (s : State) (r : RegIndex) :
    (pushed s r).mem.read (stackAddress s.decrementSp) = (pushed s r).readReg r := by
  rw [pushed_mem, Memory.read_write, if_pos rfl, readReg_pushed]

/-- Settles O42: the PC a PUSH leaves is here the address it stored to, so the next window begins with the stored byte. -/
theorem storeIsSeenByTheNextFetch : Obligations.StoreIsSeenByTheNextFetch := by
  intro s r hrun hpc hop hr haddr
  have hhead : (fetchWindow (pushed s r)).head? = some ((pushed s r).readReg r) := by
    obtain ⟨rest, hwin, -⟩ := fetchWindow_cons (s := pushed s r) (Nat.add_le_add_right hpc 2)
    rw [hwin, List.head?_cons, pushed_pc, ← haddr, read_pushed_stackAddress]
  exact ⟨_, step_push hrun hpc hop hr, hhead, fun hone => ⟨_, step_hlt hrun (hone ▸ hhead), rfl⟩⟩

end Sys2Proof.Machine
end

/-! PROOFS of the family `30_encoding.md`: decoding against encoding (R61 to R67, R70) and the image text (R75). -/
section

namespace Sys2Proof

/-! ### what decoding answers (R61 to R67) -/

/-- Everything `decode` can answer, by the list it is given: the bytes alone fix which case it is. -/
inductive DecodeAnswer : List Byte → Decoded → Prop where
  | empty : DecodeAnswer [] (.missing 0)
  | unknown (b : Byte) (rest : List Byte) (hd : dispatch b = none) : DecodeAnswer (b :: rest) (.unknownOpcode b)
  | short (op : Opcode) (rest : List Byte) (hl : rest.length + 1 < op.format.length) :
      DecodeAnswer (op.byte :: rest) (.missing (rest.length + 1))
  | instr (i : Instr) (rest : List Byte) : DecodeAnswer (encode i ++ rest) (.instr i rest)

/-- An opcode byte that the table does not hold is named, whatever follows it. -/
theorem decode_cons_of_dispatch_eq_none {b : Byte} (hd : dispatch b = none) (rest : List Byte) :
    decode (b :: rest) = .unknownOpcode b := by
  simp [decode, hd]

/-- A known opcode with too few bytes after it: the first missing byte is named. -/
theorem decode_cons_byte_short {op : Opcode} {rest : List Byte} (hl : rest.length + 1 < op.format.length) :
    decode (op.byte :: rest) = .missing (rest.length + 1) :=
  (decode_cons_byte op rest).trans (Machine.decodeOperands_short op rest hl)

/-- The inversion lemma of `decode`. -/
theorem decodeAnswer_decode (bs : List Byte) : DecodeAnswer bs (decode bs) := by
  cases bs with
  | nil => exact .empty
  | cons b rest =>
    cases hd : dispatch b with
    | none => exact decode_cons_of_dispatch_eq_none hd rest ▸ .unknown b rest hd
    | some op =>
      obtain rfl := dispatch_eq_some hd
      by_cases hl : rest.length + 1 < op.format.length
      · exact decode_cons_byte_short hl ▸ .short op rest hl
      · obtain ⟨i, tail, hdec, rfl, rfl⟩ := Machine.decodeOperands_complete op rest (Nat.le_of_not_lt hl)
        exact (decode_cons_byte _ _).trans hdec ▸ .instr i tail

/-- The bytes no handler is found under, as the complement of a list. -/
theorem dispatch_eq_none_iff_notMem (b : Byte) :
    dispatch b = none ↔ b ∉ ([0x01, 0x45, 0x46, 0x47, 0x82, 0xA2] : List Byte) := by
  simp only [dispatch_eq_none_iff, List.mem_cons, List.not_mem_nil, or_false, not_or]
  tauto

end Sys2Proof

namespace Sys2Proof.Machine

/-- Settles O13: the only list that decodes to `i` and a rest is the one that the inversion lemma shows. -/
theorem decodeIsTheInverseOfEncode : Obligations.DecodeIsTheInverseOfEncode := by
  intro bs i rest
  refine ⟨fun h => ?_, fun h => h ▸ decode_encode_append i rest⟩
  have hans := decodeAnswer_decode bs
  rw [h] at hans
  cases hans with
  | instr => rfl

/-- Settles O14: each rejection is the answer in one case of the inversion lemma, or in two. -/
theorem decodeRejectsExactlyTheOthers : Obligations.DecodeRejectsExactlyTheOthers := by
  refine ⟨fun bs b => ⟨fun h => ?_, ?_⟩, fun bs k => ⟨fun h => ?_, ?_⟩⟩
  · have hans := decodeAnswer_decode bs
    rw [h] at hans
    cases hans with
    | unknown _ rest hd => exact ⟨(dispatch_eq_none_iff_notMem b).mp hd, rest, rfl⟩
  · rintro ⟨hb, rest, rfl⟩
    exact decode_cons_of_dispatch_eq_none ((dispatch_eq_none_iff_notMem b).mpr hb) rest
  · have hans := decodeAnswer_decode bs
    rw [h] at hans
    cases hans with
    | empty => exact ⟨rfl, .inl rfl⟩
    | short op rest hl => exact ⟨rfl, .inr ⟨op, rest, rfl, hl⟩⟩
  · rintro ⟨rfl, rfl | ⟨op, rest, rfl, hl⟩⟩
    · rfl
    · exact decode_cons_byte_short hl

/-- Settles O12: seven closed words are decoded, one per row and a neighbour of LDI's opcode. -/
theorem sampleWordsDecode : Obligations.SampleWordsDecode := by
  refine ⟨?_, ?_, ?_, ?_, ?_, ?_, ?_⟩ <;> rfl

/-! ### the image text (R75) -/

/-- A list of binary digits, as characters. -/
def IsBinary (l : List Char) : Prop := ∀ c ∈ l, c = '0' ∨ c = '1'

/-- Text up to a line terminator is its first line. -/
theorem textLines_append_lineTerminator {l : List Char} (hl : lineTerminator ∉ l) (text : List Char) :
    textLines (l ++ lineTerminator :: text) = l :: textLines text := by
  induction l with
  | nil => simp [textLines]
  | cons c cs ih =>
    obtain ⟨hc, hcs⟩ := not_or.mp (List.mem_cons.not.mp hl)
    simp [textLines, Ne.symm hc, ih hcs]

theorem IsBinary.lineTerminator_notMem {l : List Char} (hl : IsBinary l) : lineTerminator ∉ l :=
  fun h => absurd (hl _ h) (by decide)

theorem IsBinary.reverse {l : List Char} (hl : IsBinary l) : IsBinary l.reverse :=
  fun c hc => hl c (List.mem_reverse.mp hc)

/-- A binary digit is not white space, so nothing is trimmed. -/
theorem IsBinary.dropWhile_isBlank {l : List Char} (hl : IsBinary l) : l.dropWhile isBlank = l := by
  cases l with
  | nil => rfl
  | cons c cs =>
    have hc : isBlank c = false := by
      rcases hl c List.mem_cons_self with rfl | rfl <;> rfl
    simp [hc]

/-- A line of binary digits has no comment and nothing to trim. -/
theorem IsBinary.lineBody_eq {l : List Char} (hl : IsBinary l) : lineBody l = l := by
  have hcomment : l.takeWhile (fun c => c != '#') = l := by
    refine List.takeWhile_eq_self_iff.mpr fun c hc => ?_
    rcases hl c hc with rfl | rfl <;> rfl
  rw [lineBody, hcomment, hl.dropWhile_isBlank, hl.reverse.dropWhile_isBlank, List.reverse_reverse]

/-- One binary digit doubles what was read before it and adds its value. -/
theorem parseBits_cons_digit (acc : Nat) {d : Nat} (hd : d < 2) (cs : List Char) :
    parseBits acc (digit d :: cs) = parseBits (2 * acc + d) cs := by
  obtain rfl | rfl : d = 0 ∨ d = 1 := by omega
  · rfl
  · rfl

/-- Horner's rule: after the digits of `n` from position `m` up, the `m` digits below complete `n`. -/
theorem parseBits_low_digits (n m : Nat) :
    parseBits (n / 2 ^ m) ((List.range m).reverse.map fun k => digit (n / 2 ^ k % 2)) = some n := by
  induction m with
  | zero => simp [parseBits]
  | succ m ih =>
    have horner : 2 * (n / 2 ^ (m + 1)) + n / 2 ^ m % 2 = n / 2 ^ m := by
      rw [Nat.pow_succ, ← Nat.div_div_eq_div_mul]
      exact Nat.div_add_mod _ 2
    rw [List.range_succ, List.reverse_append, List.reverse_singleton, List.singleton_append, List.map_cons,
      parseBits_cons_digit _ (Nat.mod_lt _ Nat.two_pos), horner, ih]

theorem byteBits_length (b : Byte) : (byteBits b).length = 8 := rfl

theorem byteBits_isBinary (b : Byte) : IsBinary (byteBits b) := by
  intro c hc
  obtain ⟨k, -, rfl⟩ := List.mem_map.mp hc
  rcases Nat.mod_two_eq_zero_or_one (b.toNat / 2 ^ k) with h | h
  · exact .inl (by rw [h]; rfl)
  · exact .inr (by rw [h]; rfl)

/-- The eight digits of a byte read back as its value. -/
theorem parseBits_byteBits (b : Byte) : parseBits 0 (byteBits b) = some b.toNat := by
  have hzero : b.toNat / 2 ^ 8 = 0 := Nat.div_eq_of_lt b.isLt
  exact hzero ▸ parseBits_low_digits b.toNat 8

/-- A line of eight binary digits gives the byte they stand for. -/
theorem parseLine_of_isBinary {l : List Char} {n : Nat} (hl : IsBinary l) (hlen : l.length = 8)
    (hbits : parseBits 0 l = some n) : parseLine l = some [BitVec.ofNat 8 n] := by
  rw [parseLine, hl.lineBody_eq]
  cases l with
  | nil => cases hlen
  | cons c cs => simp [Nat.succ.inj hlen, hbits]

theorem parseLine_byteBits (b : Byte) : parseLine (byteBits b) = some [b] := by
  rw [parseLine_of_isBinary (byteBits_isBinary b) (byteBits_length b) (parseBits_byteBits b), BitVec.ofNat_toNat,
    BitVec.setWidth_eq]

/-- Settles O54, by induction on the image: its first byte is the text's first line. -/
theorem imageTextReadsBack : Obligations.ImageTextReadsBack := by
  intro img
  induction img with
  | nil => rfl
  | cons b bs ih =>
    rw [parseImage] at ih ⊢
    rw [renderImage, textLines_append_lineTerminator (byteBits_isBinary b).lineTerminator_notMem, parseLines,
      parseLine_byteBits, ih]
    rfl

end Sys2Proof.Machine
end

/-! PROOFS of the family `40_engine_cycle.md`: the dispatch table (R83), the step's outcomes (R80 to R92), and the
reference pseudocode (R91). -/
section

namespace Sys2Proof.Machine

/-! ### dispatch (R83) -/

/-- Settles O11: a byte is found with a handler exactly when it is the handler's own opcode byte. -/
theorem dispatchTableHasExactlySixEntries : Obligations.DispatchTableHasExactlySixEntries := by
  intro b op
  rw [dispatch_eq_some_iff]
  cases op <;> simp [Opcode.byte]

/-! ### when a step exists (R80, R89) -/

/-- Settles O18: the inversion lemma says that only a RUNNING state has a step, and its forward form that each has one. -/
theorem stepExistsExactlyWhenRunning : Obligations.StepExistsExactlyWhenRunning := by
  refine fun s => ⟨⟨fun hrun => ?_, fun ⟨t, h⟩ => (stepped_of_step h).1⟩, fun h => ?_, fun h => ?_⟩
  · obtain ⟨t, hst, -⟩ := step_stepped hrun
    exact ⟨t, hst⟩
  · rw [step, h]
  · rw [step, h]

/-! ### fetch and decode (R81, R82, R85, R88) -/

theorem fetchInstr_of_decode {s : State} {i : Instr} {rest : List Byte} (h : decode (fetchWindow s) = .instr i rest) :
    fetchInstr s = .ok i := by
  rw [fetchInstr, h]

/-- A fetch past the end of memory fails at the PC itself. -/
theorem fetchInstr_of_ge {s : State} (h : 256 ≤ s.pc) : fetchInstr s = .error ⟨.addressOutOfRange, s.pc⟩ := by
  rw [fetchInstr, fetchWindow_outside h]
  rfl

/-- An opcode byte that the table does not hold fails the fetch, also where no operand byte could follow it. -/
theorem fetchInstr_of_dispatch_eq_none {s : State} (hpc : s.pc ≤ 255) (h : dispatch (s.mem.read s.pc) = none) :
    fetchInstr s = .error ⟨.unknownOpcode, (s.mem.read s.pc).toNat⟩ := by
  obtain ⟨rest, hwin, -⟩ := fetchWindow_cons hpc
  rw [fetchInstr, hwin, decode_cons_of_dispatch_eq_none h]

/-- Settles O15: the window's cells are known, and a window that decodes is a fetch that succeeds. -/
theorem stepRunsTheDecodedInstruction : Obligations.StepRunsTheDecodedInstruction := by
  refine fun s => ⟨fun k => ?_, fun i rest hrun h => step_of_fetch hrun (fetchInstr_of_decode h)⟩
  simp only [fetchWindow_getElem?, Nat.lt_succ_iff]

/-- Settles O33: the fetch fails at the PC, and a step raises the error of its fetch. -/
theorem fetchPastTheEndRaises : Obligations.FetchPastTheEndRaises :=
  fun _ hrun h => step_of_fetch_error hrun (fetchInstr_of_ge h)

/-- Settles O32: no handler is found under the byte, and a step raises the error of its fetch. -/
theorem unknownOpcodeRaises : Obligations.UnknownOpcodeRaises :=
  fun _ hrun hpc h =>
    step_of_fetch_error hrun (fetchInstr_of_dispatch_eq_none hpc ((dispatch_eq_none_iff_notMem _).mpr h))

/-! ### all or nothing (R92) -/

/-- Settles O34: of everything a step can leave, only a raised error is FAULTED. -/
theorem faultingStepChangesOnlyRunAndError : Obligations.FaultingStepChangesOnlyRunAndError := by
  intro s t h ht
  obtain ⟨hrun, heff⟩ := stepEffect_of_step h
  cases heff with
  | raised e _ _ => exact ⟨e.kind, e.info, rfl⟩
  | hlt _ _ => cases ht
  | _ => cases hrun.symm.trans ht

/-! ### the operations as the pseudocode writes them (R91) -/

/-- Validating a register operand and going on is the pseudocode's test against 7. -/
theorem regIndex_bind {α : Type} (b : Byte) (f : RegIndex → Except Raised α) :
    regIndex b >>= f =
      if h : b.toNat ≤ 7 then f ⟨b.toNat, Nat.lt_succ_of_le h⟩ else .error ⟨.registerIndexOutOfRange, b.toNat⟩ := by
  by_cases h : b.toNat ≤ 7
  · rw [dif_pos h, regIndex_of_eq (r := ⟨b.toNat, Nat.lt_succ_of_le h⟩) rfl]
    rfl
  · rw [dif_neg h, regIndex_of_ge (Nat.lt_of_not_le h)]
    rfl

/-- Storing a byte needs no `wrap8`. -/
theorem State.writeReg_toNat (s : State) (r : RegIndex) (v : Byte) :
    s.writeReg r v.toNat = { s with x := s.x.set r.val v } := by
  rw [State.writeReg, wrap8_natCast_toNat]

theorem State.incrementSp_eq (s : State) : s.incrementSp = { s with x := s.x.set 7 (s.x[7] + 1) } := by
  rw [State.incrementSp, State.writeReg, wrap8_toNat_add_one]
  rfl

theorem State.decrementSp_eq (s : State) : s.decrementSp = { s with x := s.x.set 7 (s.x[7] - 1) } := by
  rw [State.decrementSp, State.writeReg, wrap8_toNat_sub_one]
  rfl

/-- The ALU's multiplication is multiplication of bytes. -/
theorem alu_mul (p q : RegIndex) (s : State) :
    alu .mul p q s = .ok { s with x := s.x.set p.val (s.x[p.val] * s.x[q.val]) } := by
  rw [alu_of_exact rfl, State.writeReg, wrap8_mul]
  rfl

/-- MemWrite leaves the PC, so the PC after PUSH can be counted from before the store. -/
theorem memWrite_bind_advance (s : State) (a n : Nat) (v : Byte) :
    (memWrite s a v >>= fun t => pure (t.advance n)) = memWrite s a v >>= fun t => pure { t with pc := s.pc + n } := by
  rw [memWrite]
  split <;> rfl

/-! ### the pseudocode, by the bytes it reads (R91) -/

section Reference
variable {s : State}

/-- An unknown opcode byte is none that the pseudocode compares with. -/
theorem referenceBody_of_dispatch_eq_none {b : Byte} (h0 : memRead s s.pc = .ok b) (hd : dispatch b = none) :
    referenceBody s = .error ⟨.unknownOpcode, b.toNat⟩ := by
  obtain ⟨hhlt, hldi, hprn, hmul, hpop, hpush⟩ := (dispatch_eq_none_iff b).mp hd
  rw [referenceBody, h0]
  simp only [bind, Except.bind, if_neg hhlt, if_neg hldi, if_neg hprn, if_neg hmul, if_neg hpop, if_neg hpush]
  rfl

/-- Every opcode but HLT's is followed by a read of its first operand byte. -/
theorem referenceBody_of_first_operand_error {op : Opcode} {e : Raised} (hop : op ≠ .hlt)
    (h0 : memRead s s.pc = .ok op.byte) (h1 : memRead s (s.pc + 1) = .error e) : referenceBody s = .error e := by
  cases op with
  | hlt => exact absurd rfl hop
  | _ =>
    rw [referenceBody, h0, h1]
    rfl

/-- The three-byte instructions read their second operand byte before they look at the first. -/
theorem referenceBody_of_second_operand_error {op : Opcode} {b : Byte} {e : Raised} (hop : op.format.length = 3)
    (h0 : memRead s s.pc = .ok op.byte) (h1 : memRead s (s.pc + 1) = .ok b) (h2 : memRead s (s.pc + 2) = .error e) :
    referenceBody s = .error e := by
  cases op with
  | ldi | mul =>
    rw [referenceBody, h0, h1, h2]
    rfl
  | _ => cases hop

/-- An instruction that reaches past the end of memory fails at address 256, the first that does not exist. -/
theorem referenceBody_of_truncated {op : Opcode} (hpc : s.pc ≤ 255) (h0 : memRead s s.pc = .ok op.byte)
    (hl : 256 < s.pc + op.format.length) : referenceBody s = .error ⟨.addressOutOfRange, 256⟩ := by
  have hlen : op.format.length ≤ 3 := by cases op <;> decide
  have read_at_256 {a : Nat} (ha : a = 256) : memRead s a = .error ⟨.addressOutOfRange, 256⟩ :=
    ha ▸ memRead_of_ge ha.ge
  by_cases h255 : s.pc = 255
  · have hop : op ≠ .hlt := fun h => absurd hl (by simp [h, h255, Opcode.format, Format.length])
    exact referenceBody_of_first_operand_error hop h0 (read_at_256 (by omega))
  · exact referenceBody_of_second_operand_error (by omega) h0 (memRead_of_lt (by omega)) (read_at_256 (by omega))

/-- Each handler is the pseudocode's branch for its opcode byte, operation for operation. -/
theorem exec_eq_finish_referenceBody (i : Instr) (h0 : memRead s s.pc = .ok i.opcode.byte)
    (ho : ∀ k b, i.operandBytes[k]? = some b → memRead s (s.pc + 1 + k) = .ok b) :
    exec i s = finish s (referenceBody s) := by
  cases i with
  | hlt =>
    rw [referenceBody, h0]
    rfl
  | ldi reg imm =>
    simp only [exec, execLdi, regIndex_bind, State.writeReg_toNat]
    rw [referenceBody, h0, ho 0 reg rfl, ho 1 imm rfl]
    rfl
  | prn reg =>
    simp only [exec, execPrn, regIndex_bind]
    rw [referenceBody, h0, ho 0 reg rfl]
    rfl
  | mul regA regB =>
    simp only [exec, execMul, regIndex_bind, alu_mul]
    rw [referenceBody, h0, ho 0 regA rfl, ho 1 regB rfl]
    rfl
  | pop reg =>
    simp only [exec, execPop, regIndex_bind, State.writeReg_toNat, State.incrementSp_eq]
    rw [referenceBody, h0, ho 0 reg rfl]
    rfl
  | push reg =>
    simp only [exec, execPush, regIndex_bind, State.decrementSp_eq, memWrite_bind_advance]
    rw [referenceBody, h0, ho 0 reg rfl]
    rfl

/-- The instruction's operand bytes are its length less the opcode byte. -/
theorem operandBytes_length_succ (i : Instr) : i.operandBytes.length + 1 = i.length := by
  cases i <;> rfl

/-- The operand bytes of a fetched instruction are what MemRead answers after the PC. -/
theorem memRead_operand {i : Instr} (hl : s.pc + i.length ≤ 256)
    (ho : ∀ k b, i.operandBytes[k]? = some b → s.mem.read (s.pc + 1 + k) = b) (k : Nat) (b : Byte)
    (hk : i.operandBytes[k]? = some b) : memRead s (s.pc + 1 + k) = .ok b := by
  have hlt : k < i.operandBytes.length := (List.getElem?_eq_some_iff.mp hk).1
  have hlen := operandBytes_length_succ i
  rw [memRead_of_lt (by omega), ho k b hk]

/-- The step settles what the pseudocode's body answers: the fetch fails where the body's reads and comparisons do. -/
theorem step_eq_finish_referenceBody (hrun : s.run = .running) : step s = finish s (referenceBody s) := by
  have hfetched := fetched s
  generalize hf : fetchInstr s = r at hfetched
  have read_opcode (hpc : s.pc ≤ 255) : memRead s s.pc = .ok (s.mem.read s.pc) := memRead_of_lt (Nat.lt_succ_of_le hpc)
  have raises {e : Raised} (he : fetchInstr s = .error e) (hbody : referenceBody s = .error e) :
      step s = finish s (referenceBody s) := by
    rw [step_of_fetch_error hrun he, hbody, finish_error]
  cases hfetched with
  | outside h =>
    refine raises hf ?_
    rw [referenceBody, memRead_of_ge h]
    rfl
  | unknown h hd => exact raises hf (referenceBody_of_dispatch_eq_none (read_opcode h) hd)
  | truncated op h hd hl => exact raises hf (referenceBody_of_truncated h (hd ▸ read_opcode h) hl)
  | instr i hl hd ho =>
    have hpc : s.pc ≤ 255 := by
      have hlen := operandBytes_length_succ i
      omega
    rw [step_of_fetch hrun hf, exec_eq_finish_referenceBody i (hd ▸ read_opcode hpc) (memRead_operand hl ho)]

theorem finish_referenceBody (s : State) : finish s (referenceBody s) = .next (referenceStep s) := by
  rw [referenceStep]
  cases referenceBody s <;> rfl

end Reference

/-- Settles O17: the step and the pseudocode settle the same answer of the pseudocode's body. -/
theorem stepIsTheReferencePseudocode : Obligations.StepIsTheReferencePseudocode :=
  fun s hrun => (step_eq_finish_referenceBody hrun).trans (finish_referenceBody s)

end Sys2Proof.Machine
end

/-! PROOFS of the family `41_system_hlt.md`: HLT (R95). -/
section

namespace Sys2Proof.Machine

/-- Halting sets the run state and keeps every other part of the state, the PC among them (R95, D4). -/
theorem hltEffect_halt (s : State) : HltEffect s s.halt :=
  ⟨s.halt_run, s.halt_pc, fun j _ => s.readReg_halt j, fun a => congrArg (Memory.read · a) s.halt_mem,
    s.halt_out, s.halt_err⟩

/-- Settles O19: the handler always answers the halted state. -/
theorem hltCompletes : Obligations.HltCompletes :=
  fun s => ⟨s.halt, exec_hlt s, hltEffect_halt s⟩

end Sys2Proof.Machine
end

/-! PROOFS of the family `42_ldi_prn.md`: LDI (R100, R101), PRN (R102) and the output log of a run (R103). -/
section

namespace Sys2Proof.Machine

/-! ### the step, by the bytes at the PC (R85, R86) -/

theorem opcode_byte_injective : Function.Injective Opcode.byte := fun op op' h => by
  simpa using congrArg dispatch h

/-- A known opcode whose operand bytes reach past the end of memory fails the fetch at address 256. -/
theorem fetchInstr_of_truncated {s : State} (op : Opcode) (hpc : s.pc ≤ 255) (hop : s.mem.read s.pc = op.byte)
    (hl : 256 < s.pc + op.format.length) : fetchInstr s = .error ⟨.addressOutOfRange, 256⟩ := by
  have hfetched := fetched s
  generalize fetchInstr s = r at hfetched ⊢
  cases hfetched with
  | outside h => omega
  | unknown h hd => simp [hop] at hd
  | truncated op' h hd hl' => rfl
  | instr i hl' hd ho =>
    obtain rfl := opcode_byte_injective (hop.symm.trans hd)
    exact absurd hl' (Nat.not_le_of_gt hl)

/-- A RUNNING step on an instruction that does not fit below address 256 raises AddressOutOfRange (R86). -/
theorem step_of_truncated {s : State} (op : Opcode) (hrun : s.run = .running) (hpc : s.pc ≤ 255)
    (hop : s.mem.read s.pc = op.byte) (hl : 256 < s.pc + op.format.length) :
    step s = .next (raisedState s .addressOutOfRange 256) :=
  step_of_fetch_error hrun (fetchInstr_of_truncated op hpc hop hl)

/-- A RUNNING step runs the instruction whose encoding is the cells from the PC on. -/
theorem step_of_encode_eq_reads {s : State} {i : Instr} (hrun : s.run = .running) (hl : s.pc + i.length ≤ 256)
    (hbytes : encode i = (List.range i.length).map fun k => s.mem.read (s.pc + k)) : step s = exec i s := by
  refine stepRunsTheEncodedInstruction s i hrun fun k b hk => ?_
  obtain ⟨hlt, hread⟩ := List.getElem?_eq_some_iff.mp (hbytes ▸ hk)
  simp only [List.length_map, List.length_range] at hlt
  exact ⟨by omega, by simpa using hread⟩

/-! ### LDI (R100, R101) -/

/-- Writing a byte to one register and moving the PC on by 3 is LDI's effect. -/
theorem ldiEffect_writeReg_advance (s : State) (r : RegIndex) (imm : Byte) :
    LdiEffect r imm s ((s.writeReg r imm.toNat).advance 3) :=
  ⟨by simp, fun _ hj => State.readReg_writeReg_ne s _ (List.mem_singleton.not.mp hj), rfl, fun _ => rfl, rfl, rfl,
    rfl⟩

/-- Settles O20: with a valid register operand the handler writes the immediate to it and advances. -/
theorem ldiCompletes : Obligations.LdiCompletes :=
  fun s _ imm r hreg => ⟨_, exec_ldi hreg, ldiEffect_writeReg_advance s r imm⟩

/-- An LDI that fits below address 256 is performed with the two bytes after its opcode. -/
theorem step_ldi {s : State} (hrun : s.run = .running) (hpc : s.pc ≤ 253) (hop : s.mem.read s.pc = 0x82) :
    step s = exec (.ldi (s.mem.read (s.pc + 1)) (s.mem.read (s.pc + 2))) s :=
  step_of_encode_eq_reads hrun (Nat.add_le_add_right hpc 3) (congrArg (· :: _) hop.symm)

/-- Settles O26: the fetch fails at 254 and 255; below, the handler runs, and its register operand names a register or
not. -/
theorem ldiStepFollowsItsRule : Obligations.LdiStepFollowsItsRule := by
  refine fun s hrun hpc hop => ⟨fun hend => ?_, fun hin hbad => ?_, fun r hin hreg => ?_⟩
  · exact step_of_truncated .ldi hrun hpc hop (Nat.add_le_add_right hend 3)
  · exact (step_ldi hrun hin hop).trans (exec_ldi_bad hbad)
  · exact ⟨_, (step_ldi hrun hin hop).trans (exec_ldi hreg), ldiEffect_writeReg_advance s r _⟩

/-! ### PRN (R102) -/

/-- Emitting a register's value and moving the PC on by 2 is PRN's effect. -/
theorem prnEffect_emit_advance (s : State) (r : RegIndex) : PrnEffect r s ((s.emit (s.readReg r)).advance 2) :=
  ⟨rfl, fun _ _ => rfl, rfl, fun _ => rfl, rfl, rfl⟩

/-- Settles O21: with a valid register operand the handler emits its value and advances. -/
theorem prnCompletes : Obligations.PrnCompletes :=
  fun s _ r hreg => ⟨_, exec_prn hreg, prnEffect_emit_advance s r⟩

/-- A PRN that fits below address 256 is performed with the byte after its opcode. -/
theorem step_prn {s : State} (hrun : s.run = .running) (hpc : s.pc ≤ 254) (hop : s.mem.read s.pc = 0x47) :
    step s = exec (.prn (s.mem.read (s.pc + 1))) s :=
  step_of_encode_eq_reads hrun (Nat.add_le_add_right hpc 2) (congrArg (· :: _) hop.symm)

/-- Settles O27: the fetch fails at 255; below, the handler runs, and its register operand names a register or not. -/
theorem prnStepFollowsItsRule : Obligations.PrnStepFollowsItsRule := by
  refine fun s hrun hpc hop => ⟨fun hend => ?_, fun hin hbad => ?_, fun r hin hreg => ?_⟩
  · exact step_of_truncated .prn hrun hpc hop (Nat.add_le_add_right hend.ge 2)
  · exact (step_prn hrun hin hop).trans (exec_prn_bad hbad)
  · exact ⟨_, (step_prn hrun hin hop).trans (exec_prn hreg), prnEffect_emit_advance s r⟩

/-! ### the output log of a run (R103) -/

/-- The PRN values of a run are those of its first step, then those of the rest. -/
theorem prnValues_succ {s t : State} (h : step s = .next t) (n : Nat) :
    prnValues (n + 1) s = prnValues 1 s ++ prnValues n t := by
  simp [prnValues, h]

/-- A step whose fetch does not answer a PRN contributes no value. -/
theorem prnValues_one_of_fetch_ne_prn {s : State} (hf : ∀ b, fetchInstr s ≠ .ok (.prn b)) : prnValues 1 s = [] := by
  rw [prnValues]
  split
  · split
    · exact absurd ‹_› (hf _)
    · rfl
  · rfl
  · rfl

/-- A step that fetches a PRN of register `r` contributes the value of `r`. -/
theorem prnValues_one_of_fetch_prn {s t : State} {b : Byte} {r : RegIndex} (h : step s = .next t)
    (hf : fetchInstr s = .ok (.prn b)) (hr : b.toNat = r.val) : prnValues 1 s = [s.readReg r] := by
  simp [prnValues, h, hf, hr]

/-- A step that fetches a PRN with a bad register operand contributes no value. -/
theorem prnValues_one_of_fetch_prn_bad {s t : State} {b : Byte} (h : step s = .next t)
    (hf : fetchInstr s = .ok (.prn b)) (hb : 8 ≤ b.toNat) : prnValues 1 s = [] := by
  simp [prnValues, h, hf, Nat.not_lt.mpr hb]

/-- Every handler but PRN's leaves the log. -/
theorem out_of_executed_ne_prn {s t : State} {i : Instr} (ht : Executed s i t) (hi : ∀ b, i ≠ .prn b) :
    t.out = s.out := by
  cases ht with
  | prn b r h => exact absurd rfl (hi b)
  | _ => rfl

/-- One step appends its PRN value to the log, if it has one. -/
theorem out_of_step {s t : State} (h : step s = .next t) : t.out = s.out ++ prnValues 1 s := by
  have hrun : s.run = .running := (stepped_of_step h).1
  cases hf : fetchInstr s with
  | error e =>
    obtain rfl : s.raise e = t := by simpa [h] using (step_of_fetch_error hrun hf).symm
    rw [prnValues_one_of_fetch_ne_prn (by simp [hf]), List.append_nil, State.raise_out]
  | ok i =>
    have hexec : Executed s i t := executed_of_exec ((step_of_fetch hrun hf).symm.trans h)
    by_cases hi : ∃ b, i = .prn b
    · obtain ⟨b, rfl⟩ := hi
      cases hexec with
      | prn _ r hr => rw [prnValues_one_of_fetch_prn h hf hr]; rfl
      | badRegister _ c hc hbad =>
        obtain rfl : c = b := List.mem_singleton.mp hc
        rw [prnValues_one_of_fetch_prn_bad h hf hbad, List.append_nil, State.raise_out]
    · have hne : ∀ b, i ≠ .prn b := not_exists.mp hi
      rw [prnValues_one_of_fetch_ne_prn (by simpa [hf] using hne), List.append_nil, out_of_executed_ne_prn hexec hne]

/-- R103: along a run the log grows by the values of the PRN instructions executed. -/
theorem runLoop_out (n : Nat) (s : State) : (runLoop n s).out = s.out ++ prnValues n s := by
  induction n generalizing s with
  | zero => exact (List.append_nil s.out).symm
  | succ n ih =>
    cases hst : step s with
    | next t =>
      calc (runLoop (n + 1) s).out
        _ = t.out ++ prnValues n t := by rw [runLoop_next hst, ih]
        _ = s.out ++ prnValues (n + 1) s := by rw [out_of_step hst, prnValues_succ hst n, List.append_assoc]
    | fault f => simp [runLoop, prnValues, hst]
    | refused f => simp [runLoop, prnValues, hst]

/-- Settles O44: the log of a run by induction on its steps, and a faulting step leaves the log with all else. -/
theorem outputLogIsThePrnValuesInOrder : Obligations.OutputLogIsThePrnValuesInOrder := by
  refine ⟨fun s n => runLoop_out n s, fun s t h ht => ?_⟩
  obtain ⟨kind, info, rfl⟩ := faultingStepChangesOnlyRunAndError s t h ht
  rfl

end Sys2Proof.Machine
end

/-! PROOFS of the family `43_alu_mul.md`: the ALU (R110 to R114, R118), MUL (R115, R119), and the fatal errors that no
step raises (R116; `20_memory.md` R54). -/
section

namespace Sys2Proof.Machine

/-! ### the ALU's values (R112 to R114) -/

theorem wrap8_add (v w : Int) : wrap8 (v + w) = wrap8 v + wrap8 w := BitVec.ofInt_add v w

theorem wrap8_sub (v w : Int) : wrap8 (v - w) = wrap8 v - wrap8 w := by
  rw [wrap8, sub_eq_add_neg, BitVec.ofInt_add, BitVec.ofInt_neg, ← sub_eq_add_neg]
  rfl

/-- 256 is 0 modulo 256, so subtracting a byte from it negates the byte. -/
theorem wrap8_256_sub (q : Byte) : wrap8 (256 - q.toNat) = -q := by
  have wrap8_256 : wrap8 256 = 0 := by decide
  rw [wrap8_sub, wrap8_256, wrap8_natCast_toNat, zero_sub]

@[simp] theorem aluValue_add (p q : Byte) : aluValue .add p q = some (p + q) := by
  simp [aluValue, aluExact, wrap8_add]

@[simp] theorem aluValue_sub (p q : Byte) : aluValue .sub p q = some (p - q) := by
  simp [aluValue, aluExact, wrap8_sub]

@[simp] theorem aluValue_mul (p q : Byte) : aluValue .mul p q = some (p * q) := congrArg some (wrap8_mul p q)

/-- Settles O10: the ALU's values are the sums, differences and products of the ring of bytes. -/
theorem aluAlgebraicLaws : Obligations.AluAlgebraicLaws := by
  intro p q u
  simp only [aluValue_add, aluValue_sub, aluValue_mul, Option.bind_some, wrap8_256_sub]
  refine ⟨?_, ?_, ?_, ?_, ?_, ?_⟩
  · rw [add_comm]
  · rw [mul_comm]
  · rw [add_assoc]
  · rw [mul_assoc]
  · rw [add_sub_cancel_right]
  · rw [sub_neg_eq_add]

/-! ### the ALU on registers (R110) -/

/-- The ALU on two registers completes where it has a value on their contents, and leaves that value in the first. -/
theorem exists_alu_of_aluValue {op : AluOp} {a b : RegIndex} {s : State} {v : Byte}
    (h : aluValue op (s.readReg a) (s.readReg b) = some v) : ∃ t, alu op a b s = .ok t ∧ t.readReg a = v := by
  obtain ⟨w, hexact, rfl⟩ := Option.map_eq_some_iff.mp h
  exact ⟨_, alu_of_exact hexact, s.readReg_writeReg_self a w⟩

/-- Settles O6: on a recognised operation the ALU is a register write of the exact result. -/
theorem aluWritesWrap8OfTheExactResult : Obligations.AluWritesWrap8OfTheExactResult := by
  refine ⟨?_, fun a b s => ⟨_, rfl, rfl⟩⟩
  intro a b s p q op v hop
  have hexact : aluExact op (s.readReg a) (s.readReg b) = some v := by
    obtain ⟨rfl, rfl⟩ | ⟨rfl, rfl⟩ | ⟨rfl, rfl⟩ := hop <;> rfl
  refine ⟨_, alu_of_exact hexact, ?_, ?_, rfl, fun _ => rfl, rfl, rfl, rfl⟩
  · rw [State.readReg_writeReg_self, wrap8_toNat]
  · exact fun j hj => State.readReg_writeReg_ne s v (List.mem_singleton.not.mp hj)

/-- Settles O7: the sum of two bytes is below 512, so it loses one carry of 256 at most. -/
theorem aluAddLosesTheCarry : Obligations.AluAddLosesTheCarry := by
  constructor
  · intro a b s
    obtain ⟨t, ht, hv⟩ := exists_alu_of_aluValue (aluValue_add (s.readReg a) (s.readReg b))
    have hsum := BitVec.toNat_add (s.readReg a) (s.readReg b)
    exact ⟨t, ht, by rw [hv]; omega, by rw [hv]; omega⟩
  · intro a s
    obtain ⟨t, ht, hv⟩ := exists_alu_of_aluValue (aluValue_add (s.readReg a) (s.readReg a))
    exact ⟨t, ht, by rw [hv, BitVec.toNat_add, two_mul]⟩

/-- Settles O8: the difference of two bytes is above -256, so it loses one borrow of 256 at most. -/
theorem aluSubLosesTheBorrow : Obligations.AluSubLosesTheBorrow := by
  constructor
  · intro a b s
    obtain ⟨t, ht, hv⟩ := exists_alu_of_aluValue (aluValue_sub (s.readReg a) (s.readReg b))
    have hdiff := BitVec.toNat_sub (s.readReg a) (s.readReg b)
    exact ⟨t, ht, by rw [hv]; omega, by rw [hv]; omega⟩
  · intro a s
    obtain ⟨t, ht, hv⟩ := exists_alu_of_aluValue (aluValue_sub (s.readReg a) (s.readReg a))
    exact ⟨t, ht, by rw [hv, sub_self]⟩

/-- The product of two bytes is the low byte of their 16-bit product. -/
theorem setWidth_mul_setWidth (p q : Byte) : ((p.setWidth 16 * q.setWidth 16).setWidth 8 : Byte) = p * q := by
  rw [BitVec.setWidth_mul _ _ (by decide)]
  simp

/-- Settles O9: the product of bytes, read once as a 16-bit product and once, for `a = b`, as a square. -/
theorem aluMulKeepsTheLowByte : Obligations.AluMulKeepsTheLowByte := by
  constructor
  · intro a b s
    rw [setWidth_mul_setWidth]
    exact exists_alu_of_aluValue (aluValue_mul _ _)
  · intro a s
    obtain ⟨t, ht, hv⟩ := exists_alu_of_aluValue (aluValue_mul (s.readReg a) (s.readReg a))
    exact ⟨t, ht, by rw [hv, BitVec.toNat_mul, sq]⟩

/-! ### MUL (R115, R119) -/

/-- Writing the product to the first register and moving the PC on by 3 is MUL's effect. -/
theorem mulEffect_writeReg_advance (s : State) (a b : RegIndex) :
    MulEffect a b s ((s.writeReg a ((s.readReg a).toNat * (s.readReg b).toNat : Int)).advance 3) :=
  ⟨by simp [wrap8_mul], fun _ hj => State.readReg_writeReg_ne s _ (List.mem_singleton.not.mp hj), rfl, fun _ => rfl,
    rfl, rfl, rfl⟩

/-- Settles O22: with valid register operands the handler writes the product to the first and advances. -/
theorem mulCompletes : Obligations.MulCompletes :=
  fun s _ _ a b hregA hregB => ⟨_, exec_mul hregA hregB, mulEffect_writeReg_advance s a b⟩

/-- A MUL that fits below address 256 is performed with the two bytes after its opcode. -/
theorem step_mul {s : State} (hrun : s.run = .running) (hpc : s.pc ≤ 253) (hop : s.mem.read s.pc = 0xA2) :
    step s = exec (.mul (s.mem.read (s.pc + 1)) (s.mem.read (s.pc + 2))) s :=
  step_of_encode_eq_reads hrun (Nat.add_le_add_right hpc 3) (congrArg (· :: _) hop.symm)

/-- Settles O28: the fetch fails at 254 and 255; below, the handler runs, and its first operand is bad, or only its
second, or neither. -/
theorem mulStepFollowsItsRule : Obligations.MulStepFollowsItsRule := by
  refine fun s hrun hpc hop => ⟨fun hend => ?_, fun hin hbad => ?_, fun hin hregA hbad => ?_,
    fun a b hin hregA hregB => ?_⟩
  · exact step_of_truncated .mul hrun hpc hop (Nat.add_le_add_right hend 3)
  · exact (step_mul hrun hin hop).trans (exec_mul_bad_first hbad)
  · exact (step_mul hrun hin hop).trans (exec_mul_bad_second (r := ⟨_, Nat.lt_succ_of_le hregA⟩) rfl hbad)
  · exact ⟨_, (step_mul hrun hin hop).trans (exec_mul hregA hregB), mulEffect_writeReg_advance s a b⟩

/-! ### the fatal errors that no step raises (R116; `20_memory.md` R54) -/

/-- The only fatal error of a handler is RegisterIndexOutOfRange. -/
theorem eq_raise_of_executed_faulted {s t : State} {i : Instr} (ht : Executed s i t) (hrun : s.run = .running)
    (hfault : t.run = .faulted) : ∃ n, t = s.raise ⟨.registerIndexOutOfRange, n⟩ := by
  cases ht with
  | badRegister i b hi hb => exact ⟨_, rfl⟩
  | hlt => cases hfault
  | _ => cases hrun.symm.trans hfault

/-- Settles O36: a fault is one of the fetch, at the PC, for the opcode byte or at 256, or one of a handler's register
operand. -/
theorem unsupportedOperationIsUnreachable : Obligations.UnsupportedOperationIsUnreachable := by
  intro s t e h hfault herr
  obtain ⟨hrun, hs⟩ := stepped_of_step h
  cases hs with
  | outside hpc => cases herr; exact ⟨nofun, fun _ => .inr ⟨hpc, rfl⟩⟩
  | unknown hpc hd => cases herr; exact ⟨nofun, nofun⟩
  | truncated op hpc hd hl => cases herr; exact ⟨nofun, fun _ => .inl rfl⟩
  | instr i t hl hd ho ht =>
    obtain ⟨n, rfl⟩ := eq_raise_of_executed_faulted ht hrun hfault
    cases herr
    exact ⟨nofun, nofun⟩

end Sys2Proof.Machine
end

/-! PROOFS of the family `44_stack_pop_push.md`: POP (R126, R127), PUSH (R129, R130), the stack discipline (R125, R131)
and the round trips (R132). -/
section

namespace Sys2Proof.Machine

/-! ### POP (R126, R127) -/

/-- The state a POP into register `r` leaves. -/
def popped (s : State) (r : RegIndex) : State :=
  (s.writeReg r (s.mem.read (stackAddress s)).toNat).incrementSp.advance 2

theorem exec_pop_eq_popped {s : State} {b : Byte} {r : RegIndex} (h : b.toNat = r.val) :
    exec (.pop b) s = .next (popped s r) := exec_pop h

@[simp] theorem popped_pc (s : State) (r : RegIndex) : (popped s r).pc = s.pc + 2 := rfl

@[simp] theorem popped_mem (s : State) (r : RegIndex) : (popped s r).mem = s.mem := rfl

/-- The popped register holds the byte at the old stack pointer. -/
theorem readReg_popped_self (s : State) {r : RegIndex} (hr : r ≠ 7) :
    (popped s r).readReg r = s.mem.read (stackAddress s) := by
  rw [popped, State.readReg_advance, State.readReg_incrementSp, if_neg hr, State.readReg_writeReg_self,
    wrap8_natCast_toNat]

/-- A POP into another register moves the stack pointer up by one. -/
theorem readReg_popped_sp (s : State) {r : RegIndex} (hr : r ≠ 7) : (popped s r).readReg 7 = s.readReg 7 + 1 := by
  rw [popped, State.readReg_advance, State.readReg_incrementSp, if_pos rfl, State.readReg_writeReg_ne s _ hr.symm]

/-- POP R7 increments the popped byte, not the old stack pointer (R127). -/
theorem readReg_popped_seven (s : State) : (popped s 7).readReg 7 = s.mem.read (stackAddress s) + 1 := by
  rw [popped, State.readReg_advance, State.readReg_incrementSp, if_pos rfl, State.readReg_writeReg_self,
    wrap8_natCast_toNat]

/-- A POP changes no register but its operand and the stack pointer. -/
theorem readReg_popped_ne (s : State) {r j : RegIndex} (hr : j ≠ r) (h7 : j ≠ 7) :
    (popped s r).readReg j = s.readReg j := by
  rw [popped, State.readReg_advance, State.readReg_incrementSp, if_neg h7, State.readReg_writeReg_ne s _ hr]

/-- The state that POP's handler leaves is related to the old one as R126 and R127 say. -/
theorem popEffect_popped (s : State) (r : RegIndex) : PopEffect r s (popped s r) := by
  refine ⟨fun hr => ⟨readReg_popped_self s hr, ?_⟩, ?_, fun j hj => ?_, rfl, fun _ => rfl, rfl, rfl, rfl⟩
  · rw [readReg_popped_sp s hr]
    exact BitVec.toNat_add _ _
  · rintro rfl
    rw [readReg_popped_seven]
    exact BitVec.toNat_add _ _
  · obtain ⟨hr, h7⟩ : j ≠ r ∧ j ≠ 7 := by simpa using hj
    exact readReg_popped_ne s hr h7

/-- Settles O23: with a valid register operand the handler leaves `popped`. -/
theorem popCompletes : Obligations.PopCompletes :=
  fun s _ r hreg => ⟨popped s r, exec_pop_eq_popped hreg, popEffect_popped s r⟩

/-- A POP that fits below address 256 is performed with the byte after its opcode. -/
theorem step_eq_exec_pop {s : State} (hrun : s.run = .running) (hpc : s.pc ≤ 254) (hop : s.mem.read s.pc = 0x46) :
    step s = exec (.pop (s.mem.read (s.pc + 1))) s :=
  step_of_encode_eq_reads hrun (Nat.add_le_add_right hpc 2) (congrArg (· :: _) hop.symm)

/-- Settles O29: the fetch fails at 255; below, the handler runs, and its register operand names a register or not. -/
theorem popStepFollowsItsRule : Obligations.PopStepFollowsItsRule := by
  refine fun s hrun hpc hop => ⟨fun hend => ?_, fun hin hbad => ?_, fun r hin hreg => ?_⟩
  · exact step_of_truncated .pop hrun hpc hop (Nat.add_le_add_right hend.ge 2)
  · exact (step_eq_exec_pop hrun hin hop).trans (exec_pop_bad hbad)
  · exact ⟨_, (step_eq_exec_pop hrun hin hop).trans (exec_pop_eq_popped hreg), popEffect_popped s r⟩

/-! ### PUSH (R129, R130) -/

/-- A PUSH moves the stack pointer down by one. -/
theorem readReg_pushed_sp (s : State) (r : RegIndex) : (pushed s r).readReg 7 = s.readReg 7 - 1 := by
  rw [readReg_pushed, State.readReg_decrementSp, if_pos rfl]

/-- A PUSH changes no register but the stack pointer. -/
theorem readReg_pushed_ne (s : State) (r : RegIndex) {j : RegIndex} (hj : j ≠ 7) :
    (pushed s r).readReg j = s.readReg j := by
  rw [readReg_pushed, State.readReg_decrementSp, if_neg hj]

/-- The cell a PUSH stores to is the one its new stack pointer names. -/
theorem stackAddress_decrementSp_eq_pushed (s : State) (r : RegIndex) :
    stackAddress s.decrementSp = ((pushed s r).readReg 7).toNat := rfl

/-- A PUSH changes no other cell. -/
theorem read_pushed_ne (s : State) (r : RegIndex) {a : Nat} (ha : a ≠ stackAddress s.decrementSp) :
    (pushed s r).mem.read a = s.mem.read a := by
  rw [pushed_mem, Memory.read_write_ne s.mem _ ha]

/-- The state that PUSH's handler leaves is related to the old one as R129 and R130 say. -/
theorem pushEffect_pushed (s : State) (r : RegIndex) : PushEffect r s (pushed s r) := by
  refine ⟨?_, fun j hj => readReg_pushed_ne s r (List.mem_singleton.not.mp hj), stackAddress_decrementSp_eq_pushed s r,
    read_pushed_stackAddress s r, fun a => read_pushed_ne s r, rfl, rfl, rfl, rfl⟩
  rw [readReg_pushed_sp, BitVec.toNat_sub, Nat.add_comm]
  rfl

/-- Settles O24: with a valid register operand the handler leaves `pushed`. -/
theorem pushCompletes : Obligations.PushCompletes :=
  fun s _ r hreg => ⟨pushed s r, exec_push hreg, pushEffect_pushed s r⟩

/-- A PUSH that fits below address 256 is performed with the byte after its opcode. -/
theorem step_eq_exec_push {s : State} (hrun : s.run = .running) (hpc : s.pc ≤ 254) (hop : s.mem.read s.pc = 0x45) :
    step s = exec (.push (s.mem.read (s.pc + 1))) s :=
  step_of_encode_eq_reads hrun (Nat.add_le_add_right hpc 2) (congrArg (· :: _) hop.symm)

/-- Settles O30: the fetch fails at 255; below, the handler runs, and its register operand names a register or not. -/
theorem pushStepFollowsItsRule : Obligations.PushStepFollowsItsRule := by
  refine fun s hrun hpc hop => ⟨fun hend => ?_, fun hin hbad => ?_, fun r hin hreg => ?_⟩
  · exact step_of_truncated .push hrun hpc hop (Nat.add_le_add_right hend.ge 2)
  · exact (step_eq_exec_push hrun hin hop).trans (exec_push_bad hbad)
  · exact ⟨_, (step_eq_exec_push hrun hin hop).trans (exec_push hreg), pushEffect_pushed s r⟩

/-! ### the stack discipline (R125, R131) -/

/-- Settles O25: reset's register 7 is a literal, and a PUSH and a POP are read at register 7, the operand and memory. -/
theorem stackIsDescendingPreDecrementPostIncrement : Obligations.StackIsDescendingPreDecrementPostIncrement := by
  refine ⟨congrArg BitVec.toNat (State.readReg_reset 7), fun s reg r hreg hr => ⟨?_, ?_⟩⟩
  · have hcell : (pushed s r).mem.read ((pushed s r).readReg 7).toNat = s.readReg r :=
      (read_pushed_stackAddress s r).trans (readReg_pushed_ne s r hr)
    exact ⟨pushed s r, exec_push hreg, readReg_pushed_sp s r, hcell, fun a => read_pushed_ne s r⟩
  · exact ⟨popped s r, exec_pop_eq_popped hreg, readReg_popped_self s hr, readReg_popped_sp s hr, fun _ => rfl⟩

/-- An instruction that completes is followed by the rest of the sequence. -/
theorem execSeq_cons {i : Instr} {is : List Instr} {s t : State} (h : exec i s = .next t) :
    execSeq (i :: is) s = execSeq is t := by
  rw [execSeq, h]

/-- A PUSH from a stack pointer of at least 1 does not wrap it. -/
theorem toNat_readReg_pushed_sp {s : State} (r : RegIndex) (h : 1 ≤ (s.readReg 7).toNat) :
    ((pushed s r).readReg 7).toNat = (s.readReg 7).toNat - 1 := by
  rw [readReg_pushed_sp]
  exact BitVec.toNat_sub_of_le h

/-- Settles O52, by induction on the pushes: the first moves the pointer down without wrapping and stores to the cell just
below where it stood. -/
theorem pushesStayBelowTheStackPointer : Obligations.PushesStayBelowTheStackPointer := by
  intro s regs hregs hlen
  induction regs generalizing s with
  | nil => exact ⟨s, rfl, rfl, fun _ _ => rfl, fun _ _ => rfl⟩
  | cons b bs ih =>
    obtain ⟨hb, hbs⟩ := List.forall_mem_cons.mp hregs
    let r : RegIndex := ⟨b.toNat, Nat.lt_succ_of_le hb⟩
    rw [List.length_cons] at hlen ⊢
    have hsp := toNat_readReg_pushed_sp r (Nat.le_of_add_left_le hlen)
    obtain ⟨t, hseq, htsp, htregs, htmem⟩ := ih (pushed s r) hbs (by omega)
    refine ⟨t, (execSeq_cons (exec_push rfl)).trans hseq, by omega, fun j hj => ?_, fun a ha => ?_⟩
    · exact (htregs j hj).trans (readReg_pushed_ne s r (List.mem_singleton.not.mp hj))
    · have hne : a ≠ stackAddress s.decrementSp := by
        rw [stackAddress_decrementSp_eq_pushed s r]
        omega
      exact (htmem a (by omega)).trans (read_pushed_ne s r hne)

/-! ### the round trips (R132) -/

/-- A POP moves the stack pointer back to where it stood before a PUSH, if it finds it as that PUSH left it. -/
theorem readReg_popped_sp_of_pushed {s u : State} {r q : RegIndex} (hq : q ≠ 7)
    (hsp : u.readReg 7 = (pushed s r).readReg 7) : (popped u q).readReg 7 = s.readReg 7 := by
  rw [readReg_popped_sp u hq, hsp, readReg_pushed_sp, BitVec.sub_add_cancel]

/-- A POP takes back the value of a PUSH, if it finds the stack pointer and the pushed cell as that PUSH left them. -/
theorem readReg_popped_self_of_pushed {s u : State} {r q : RegIndex} (hq : q ≠ 7)
    (hsp : u.readReg 7 = (pushed s r).readReg 7)
    (hcell : u.mem.read (stackAddress s.decrementSp) = (pushed s r).mem.read (stackAddress s.decrementSp)) :
    (popped u q).readReg q = (pushed s r).readReg r := by
  have haddr : stackAddress u = stackAddress s.decrementSp := congrArg BitVec.toNat hsp
  rw [readReg_popped_self u hq, haddr, hcell, read_pushed_stackAddress]

/-- Settles O50: nothing stands between the PUSH and the POP. -/
theorem pushThenPopBalancesTheStack : Obligations.PushThenPopBalancesTheStack := by
  intro s b c r q hb hc hq
  have hcell : (popped (pushed s r) q).mem.read (s.readReg 7 - 1).toNat = (pushed s r).readReg r := by
    rw [popped_mem, ← stackAddress_decrementSp, read_pushed_stackAddress]
  exact ⟨pushed s r, popped (pushed s r) q, exec_push hb, exec_pop_eq_popped hc, readReg_popped_sp_of_pushed hq rfl,
    readReg_popped_self_of_pushed hq rfl rfl, fun _ => rfl, hcell⟩

/-- Settles O49: the LDI between the PUSH and the POP leaves the stack pointer and memory. -/
theorem pushThenPopRoundTrips : Obligations.PushThenPopRoundTrips := by
  intro s reg v r hreg hr
  obtain ⟨s₁, hldi₁, hval₁, hregs₁, hpc₁, -, -, -⟩ := ldiCompletes s reg v r hreg
  obtain ⟨s₂, hldi₂, -, hregs₂, hpc₂, hmem₂, -, -⟩ := ldiCompletes (pushed s₁ r) reg 0 r hreg
  have h7 : (7 : RegIndex) ∉ [r] := List.mem_singleton.not.mpr hr.symm
  refine ⟨popped s₂ r, ?_, ?_, fun j hj => ?_, ?_⟩
  · rw [execSeq_cons hldi₁, execSeq_cons (exec_push hreg), execSeq_cons hldi₂, execSeq_cons (exec_pop_eq_popped hreg),
      execSeq]
  · rw [readReg_popped_self_of_pushed hr (hregs₂ 7 h7) (hmem₂ _), readReg_pushed_ne s₁ r hr, hval₁]
  · by_cases hj7 : j = 7
    · subst hj7
      rw [readReg_popped_sp_of_pushed hr (hregs₂ 7 h7), hregs₁ 7 h7]
    · rw [readReg_popped_ne s₂ (List.mem_singleton.not.mp hj) hj7, hregs₂ j hj, readReg_pushed_ne s₁ r hj7, hregs₁ j hj]
  · rw [popped_pc, hpc₂, pushed_pc, hpc₁]

/-- A PUSH leaves the cell at the old stack pointer: it stores one below it, modulo 256. -/
theorem stackAddress_ne_decrementSp (s : State) : stackAddress s ≠ stackAddress s.decrementSp := by
  rw [stackAddress_eq, stackAddress_decrementSp]
  bv_omega

/-- Settles O51: the second PUSH and the first POP are a pair that leaves the stack pointer and the first pushed cell, so
the second POP finds both as the first PUSH left them. -/
theorem stackIsLastInFirstOut : Obligations.StackIsLastInFirstOut := by
  intro s a b c d ra rb rc rd ha hb hc hd hra hrb hrc hrd hne
  let u := pushed s ra
  let w := pushed u rb
  have hsp : (popped w rc).readReg 7 = u.readReg 7 := readReg_popped_sp_of_pushed hrc rfl
  have hcell : (popped w rc).mem.read (stackAddress s.decrementSp) = u.mem.read (stackAddress s.decrementSp) :=
    read_pushed_ne u rb (stackAddress_ne_decrementSp u)
  refine ⟨popped (popped w rc) rd, ?_, ?_, ?_, readReg_popped_sp_of_pushed hrd hsp⟩
  · rw [execSeq_cons (exec_push ha), execSeq_cons (exec_push hb), execSeq_cons (exec_pop_eq_popped hc),
      execSeq_cons (exec_pop_eq_popped hd), execSeq]
  · calc (popped (popped w rc) rd).readReg rc
      _ = (popped w rc).readReg rc := readReg_popped_ne _ hne hrc
      _ = w.readReg rb := readReg_popped_self_of_pushed hrc rfl rfl
      _ = u.readReg rb := readReg_pushed_ne u rb hrb
      _ = s.readReg rb := readReg_pushed_ne s ra hrb
  · calc (popped (popped w rc) rd).readReg rd
      _ = u.readReg ra := readReg_popped_self_of_pushed hrd hsp hcell
      _ = s.readReg ra := readReg_pushed_ne s ra hra

end Sys2Proof.Machine
end

/-! PROOFS of the family `60_exceptions.md`: the bad register operand (R144) and the table of fault conditions (R146). -/
section

namespace Sys2Proof.Machine

/-! ### the register operand above 7 (R144) -/

/-- Settles O31: validation of the operand is the first thing each handler does, for MUL's second operand the next. -/
theorem registerOperandAboveSevenRaises : Obligations.RegisterOperandAboveSevenRaises :=
  fun _ _ _ hb => ⟨exec_ldi_bad hb, exec_prn_bad hb, exec_mul_bad_first hb,
    fun hc => exec_mul_bad_second (r := ⟨_, Nat.lt_succ_of_le hc⟩) rfl hb, exec_pop_bad hb, exec_push_bad hb⟩

/-! ### the table of fault conditions (R146) -/

/-- A register operand that names a register is not above 7. -/
theorem lt_eight_of_eq_regIndex {b : Byte} {r : RegIndex} (h : b.toNat = r.val) : b.toNat < 8 :=
  h ▸ r.isLt

/-- A handler that began RUNNING faults exactly on a register operand above 7. -/
theorem faulted_iff_of_executed {s t : State} {i : Instr} (hrun : s.run = .running) (ht : Executed s i t) :
    t.run = .faulted ↔ ∃ b ∈ i.registerOperands, 8 ≤ b.toNat := by
  have running_ne_faulted {u : State} (hu : u.run = s.run) : u.run ≠ .faulted := by simp [hu, hrun]
  cases ht with
  | hlt => simp [Instr.registerOperands]
  | ldi _ _ r h | prn _ r h | pop _ r h | push _ r h =>
    exact iff_of_false (running_ne_faulted rfl) (by simpa [Instr.registerOperands] using lt_eight_of_eq_regIndex h)
  | mul b c r q hb hc =>
    exact iff_of_false (running_ne_faulted rfl)
      (by simpa [Instr.registerOperands] using ⟨lt_eight_of_eq_regIndex hb, lt_eight_of_eq_regIndex hc⟩)
  | badRegister i b hi hb => exact iff_of_true rfl ⟨b, hi, hb⟩

/-- Settles O35: a fetch that fails is one of the table's PC and opcode conditions. Of an instruction that is all in memory
only the operand conditions of its own row are left, and they are those under which its handler faults. -/
theorem faultConditionsAreTheTable : Obligations.FaultConditionsAreTheTable := by
  intro s t h
  obtain ⟨hrun, hs⟩ := stepped_of_step h
  cases hs with
  | outside hpc => exact iff_of_true rfl (.inl hpc)
  | unknown hpc hd => exact iff_of_true rfl (.inr (.inl ((dispatch_eq_none_iff_notMem _).mp hd)))
  | truncated op hpc hd hl =>
    refine iff_of_true rfl ?_
    cases op with
    | hlt => exact absurd hpc (Nat.not_le_of_gt (Nat.lt_of_succ_lt_succ hl))
    | ldi => exact .inr (.inr (.inl ⟨hd, .inl (Nat.le_of_add_le_add_right (b := 3) hl)⟩))
    | mul => exact .inr (.inr (.inr (.inl ⟨hd, .inl (Nat.le_of_add_le_add_right (b := 3) hl)⟩)))
    | prn | pop | push =>
      have hend : s.pc = 255 := Nat.le_antisymm hpc (Nat.le_of_add_le_add_right (b := 2) hl)
      exact .inr (.inr (.inr (.inr ⟨by simp [hd, Opcode.byte], .inl hend⟩)))
  | instr i t hl hd ho ht =>
    rw [faulted_iff_of_executed hrun ht]
    cases i with
    | hlt =>
      have hpc : s.pc ≤ 255 := Nat.le_of_succ_le_succ hl
      simpa [hd, Instr.registerOperands, Instr.opcode, Opcode.byte] using hpc
    | ldi reg imm =>
      have hpc : s.pc + 3 ≤ 256 := hl
      simp [hd, ho 0 reg rfl, Instr.registerOperands, Instr.opcode, Opcode.byte]
      omega
    | prn reg | pop reg | push reg =>
      have hpc : s.pc + 2 ≤ 256 := hl
      simp [hd, ho 0 reg rfl, Instr.registerOperands, Instr.opcode, Opcode.byte]
      omega
    | mul regA regB =>
      have hpc : s.pc + 3 ≤ 256 := hl
      simp [hd, ho 0 regA rfl, ho 1 regB rfl, Instr.registerOperands, Instr.opcode, Opcode.byte]
      omega

end Sys2Proof.Machine
end

/-! PROOFS of the family `70_reset_and_hazards.md`: the launch (R174, R176) and the end of a run (R178, R180). -/
section

namespace Sys2Proof.Machine

/-! ### the launch state (R174, R176) -/

/-- A launch is an image that fits, stored from address 0 into the reset state. -/
theorem launch_eq_some_iff (img : Image) (s : State) :
    launch img = some s ↔ img.length ≤ 256 ∧ s = { State.reset with mem := Memory.storeBytes [] 0 img } := by
  simp [launch, Image.wellFormed, reset_loadImage, eq_comm]

/-- An image stored from address 0 into reset memory reads as the image, and as 0x00 beyond its end. -/
theorem read_storeBytes_nil_zero (img : Image) {a : Nat} (ha : a ≤ 255) :
    (Memory.storeBytes [] 0 img).read a = img.getD a 0x00 := by
  rw [Memory.read_storeBytes [] 0 img a (Nat.lt_succ_of_le ha)]
  by_cases hlt : a < img.length <;> simp [hlt]

/-- Settles O2: a launch is the reset state with the image stored, so only its memory differs from reset. -/
theorem launchStateIsFixedByTheImage : Obligations.LaunchStateIsFixedByTheImage := by
  refine ⟨fun img => ?_, fun img s h => ?_⟩
  · simp only [launch_eq_some_iff, exists_and_left, exists_eq, and_true]
  · obtain ⟨-, rfl⟩ := (launch_eq_some_iff img s).mp h
    exact ⟨fun a ha => read_storeBytes_nil_zero img ha, fun _ => rfl, rfl, rfl, rfl, rfl⟩

/-- One `load` event per byte, at ascending addresses, is the load of the bytes. -/
theorem onEvents_loads (s : State) (a : Nat) (bs : List Byte) :
    s.onEvents ((bs.zipIdx a).map (fun c => .load c.2 c.1)) = s.loadFrom a bs := by
  induction bs generalizing s a with
  | nil => rfl
  | cons b bs ih => exact ih (s.loadByte a b) (a + 1)

/-- Settles O56: the reset event forgets the state, and the load events are the launch's own load of the image. -/
theorem launchIsResetThenLoads : Obligations.LaunchIsResetThenLoads := by
  intro s img hlen
  rw [launch_eq_some_iff, ← reset_loadImage]
  exact ⟨hlen, onEvents_loads State.reset 0 img⟩

/-- Settles O46: the image is stored in canonical form, and the rest of the launch state is that of reset. -/
theorem launchMeetsTheInvariant : Obligations.LaunchMeetsTheInvariant := by
  intro img s h
  obtain ⟨-, rfl⟩ := (launch_eq_some_iff img s).mp h
  exact State.inv_of_running (Memory.storeBytes_wf Memory.wf_nil 0 img) (Nat.zero_le _) rfl rfl

/-! ### the end of a run (R178, R180) -/

/-- A run of `m + n` steps is a run of `m` steps and then one of `n`. -/
theorem runLoop_add (m n : Nat) (s : State) : runLoop (m + n) s = runLoop n (runLoop m s) := by
  induction m generalizing s with
  | zero => rw [Nat.zero_add]; rfl
  | succ m ih =>
    by_cases hrun : s.run = .running
    · obtain ⟨t, hst, -⟩ := step_stepped hrun
      rw [Nat.succ_add, runLoop_next hst, runLoop_next hst, ih]
    · simp only [runLoop_terminal hrun]

/-- Settles O43: the step bound ends every run, and a terminal state stays as it is. -/
theorem everyRunEndsWithin129Steps : Obligations.EveryRunEndsWithin129Steps := by
  intro s n
  have hend : (runLoop 129 s).terminal := runToEnd_terminal s
  exact ⟨hend, by rw [runLoop_add, runLoop_terminal hend]⟩

/-- The invariant holds at the end of a run that begins in it. -/
theorem State.Inv.runToEnd {s : State} (hi : s.Inv) : (runToEnd s).Inv :=
  runLoop_keeps State.Inv everyStepKeepsTheInvariant hi Config.maxSteps

/-- A terminal state of the invariant is HALTED at an HLT, or FAULTED with an explained record. -/
theorem State.Inv.halted_or_explained {t : State} (hi : t.Inv) (ht : t.terminal) :
    (t.run = .halted ∧ t.err = none ∧ t.pc ≤ 255 ∧ t.mem.read t.pc = 0x01) ∨
      (t.run = .faulted ∧ ∃ e, t.err = some e ∧ t.ErrorExplained e) := by
  cases hrun : t.run with
  | running => exact absurd hrun ht
  | halted => exact .inl ⟨rfl, hi.err_iff.mpr (by simp [hrun]), hi.halted_at_hlt hrun⟩
  | faulted =>
    have herr : t.err ≠ none := fun h => hi.err_iff.mp h hrun
    obtain ⟨e, he⟩ := Option.ne_none_iff_exists'.mp herr
    exact .inr ⟨rfl, e, he, hi.err_explained e he⟩

/-- Settles O48: the launch state meets the invariant, the run keeps it, and its end is terminal. -/
theorem everyLaunchEndsHaltedOrExplained : Obligations.EveryLaunchEndsHaltedOrExplained := by
  intro img s h
  exact (launchMeetsTheInvariant img s h).runToEnd.halted_or_explained (runToEnd_terminal s)

end Sys2Proof.Machine
end
